-- ==== Sys2Proof/Word.lean ====
section
/-! DEFINITION. The one word the core computes with: a byte (spec/00_scope.md R7, spec/10_state.md R17). -/

namespace Sys2Proof

/-- A byte, 0..255: a variable, an input character or an output character (R7, R17, R36). -/
abbrev Byte := BitVec 8

end Sys2Proof
end

