-- ==== Sys2Proof/Config.lean ====
section
/-! DEFINITION. The four parameters the spec leaves to the implementation (spec/00_scope.md R6), as a type. The values the
spec recommends stand in Sys2Proof/Machine/Parameters.lean. -/

namespace Sys2Proof

/-- What INPUT writes to its variable when the input stream is exhausted: the parameter EOF_POLICY (R6, R88). -/
inductive EofPolicy where
  /-- The variable keeps its value. -/
  | unchanged
  /-- The variable becomes 0. -/
  | zero
deriving DecidableEq, Repr

/-- The parameters of R6. DESIGN CHOICE (log 1): they are carried as plain data in a field of State, so that what is
said of every state is said of every parameter value; nothing in the machine writes them. Safe. -/
structure Params where
  /-- W: the width in bits of the integer input port and of VALUE (R6, D1). -/
  width : Nat
  /-- OFFSET_SIGNED: JUMP reads its offset byte as a two's-complement number (R6, R96, D3). -/
  offsetSigned : Bool
  /-- EOF_POLICY (R6, R88, D4). -/
  eofPolicy : EofPolicy
  /-- WS: the byte values INPUT skips as whitespace, without repeats (R6, R89, D5). -/
  ws : List Byte
deriving DecidableEq, Repr

end Sys2Proof
end

