-- ==== Sys2Proof/Syntax.lean ====
section
/-! DEFINITION. The five instructions (spec/10_state.md R13), one constructor per row of spec/opcode_table.json, and their
textual form (spec/30_encoding.md R55). -/

namespace Sys2Proof

/-- An instruction: "a tagged variant with five cases", its operands variable indices, natural numbers (R13). -/
inductive Instr where
  /-- `PRINT(v)`: R85. -/
  | print (v : Nat)
  /-- `INPUT(v)`: R86. -/
  | input (v : Nat)
  /-- `JUMP(c, o)`: condition variable, offset variable: R95. -/
  | jump (c o : Nat)
  /-- `INC(v)`: R90. -/
  | inc (v : Nat)
  /-- `DEC(v)`: R91. -/
  | dec (v : Nat)
deriving DecidableEq, Repr

/-- The variable indices an instruction names, in the order they are read (R13, R48). -/
def Instr.operands : Instr → List Nat
  | .print v => [v]
  | .input v => [v]
  | .jump c o => [c, o]
  | .inc v => [v]
  | .dec v => [v]

/-- The constructor notation of R55 (D25): `PRINT(k)`, ..., `JUMP(c, o)`, decimal indices. -/
def Instr.text : Instr → String
  | .print v => "PRINT(" ++ toString v ++ ")"
  | .input v => "INPUT(" ++ toString v ++ ")"
  | .jump c o => "JUMP(" ++ toString c ++ ", " ++ toString o ++ ")"
  | .inc v => "INC(" ++ toString v ++ ")"
  | .dec v => "DEC(" ++ toString v ++ ")"

end Sys2Proof
end

