-- ==== Sys2Proof/WellFormed.lean ====
section
/-! DEFINITION. Which instructions, programs and parameters are well formed (spec/30_encoding.md R48, R52, R56;
spec/42_io.md R89). -/

namespace Sys2Proof

/-- Total length of an instruction in stream bits: the last but one column of R48's table. -/
def Instr.bitLength : Instr → Nat
  | .print v => v + 3
  | .input v => v + 3
  | .jump c o => c + o + 4
  | .inc v => v + 4
  | .dec v => v + 4

/-- Total length of a program in stream bits, without the sentinel (R45). -/
def programBitLength (p : List Instr) : Nat :=
  (p.map Instr.bitLength).sum

/-- An instruction fits a port of `w` bits: one bit is the sentinel, so it has at most `w − 1` bits (R49, R52). -/
def Instr.wf (w : Nat) (i : Instr) : Bool :=
  decide (i.bitLength + 1 ≤ w)

/-- A program fits a port of `w` bits: `blen(encode(P)) ≤ w` (R56). -/
def programWf (w : Nat) (p : List Instr) : Bool :=
  decide (programBitLength p + 1 ≤ w)

/-- A whitespace set the source allows: it contains space, tab and newline (R89, 93 U3) and lists no byte twice. -/
def Params.wf (p : Params) : Bool :=
  p.ws.contains 0x20#8 && p.ws.contains 0x09#8 && p.ws.contains 0x0A#8 && decide p.ws.Nodup

end Sys2Proof
end

