-- ==== Sys2Proof/Decode.lean ====
section
/-! DEFINITION. The decoder as a pure function from the integer to the program (spec/40_decoder.md R61 to R67), total and
rejecting by name; then the encoder, written from the same tables (spec/30_encoding.md R47, R48, R51, R56); then the reading
of a word numbered as spec/opcode_table.json numbers it. A stream of bits is a list, first bit read first (R7: stream order). -/

namespace Sys2Proof

/-- Why decoding fails: the one fault of the core (R100). -/
inductive DecodeError where
  /-- A bit is required and none is left (R62, R67). Raised by the Decoder; the spec's own fault. -/
  | truncatedProgram
deriving DecidableEq, Repr

/-- The opcode a prefix code selects (R47). -/
inductive Opcode where
  | print | input | jump | inc | dec
deriving DecidableEq, Repr

/-! ### The bitstream of an integer -/

/-- `blen(n)`: 0 for 0, otherwise one more than the index of the highest set bit (R7). -/
def blen (n : Nat) : Nat :=
  if n = 0 then 0 else n.log2 + 1

/-- Bits `k − 1` down to 0 of `v`, in stream order (R35). -/
def bitsBelow (v : Nat) : Nat → List Bool
  | 0 => []
  | k + 1 => v.testBit k :: bitsBelow v k

/-- The bits after the sentinel, `blen(v) − 2` down to 0 (R30, R45, R61); none for 0 and 1 (R68). -/
def programBits (v : Nat) : List Bool :=
  bitsBelow v (blen v - 1)

/-! ### Decoding -/

/-- `ReadIndex()`: the count of ones before the first zero, which is consumed too (R51, R64). -/
def readIndex : List Bool → Except DecodeError (Nat × List Bool)
  | [] => .error .truncatedProgram
  | false :: rest => .ok (0, rest)
  | true :: rest =>
    match readIndex rest with
    | .ok (k, rest') => .ok (k + 1, rest')
    | .error e => .error e

/-- The prefix-code table of R47; the third bit is read only when the first two are `1,0`. -/
def readOpcode : List Bool → Except DecodeError (Opcode × List Bool)
  | false :: false :: rest => .ok (.print, rest)
  | false :: true :: rest => .ok (.input, rest)
  | true :: true :: rest => .ok (.jump, rest)
  | true :: false :: false :: rest => .ok (.inc, rest)
  | true :: false :: true :: rest => .ok (.dec, rest)
  | _ => .error .truncatedProgram

/-- Read one operand and build an instruction from it. -/
def readOne (build : Nat → Instr) (bits : List Bool) : Except DecodeError (Instr × List Bool) :=
  match readIndex bits with
  | .ok (a, rest) => .ok (build a, rest)
  | .error e => .error e

/-- The operands an opcode has, read in order (R48, R65). DEDUCED by the spec (D6, log 6): JUMP's first index is the
condition variable, the second the offset variable. Unsafe if the order is the other. -/
def readOperands (op : Opcode) (bits : List Bool) : Except DecodeError (Instr × List Bool) :=
  match op with
  | .print => readOne .print bits
  | .input => readOne .input bits
  | .inc => readOne .inc bits
  | .dec => readOne .dec bits
  | .jump =>
    match readIndex bits with
    | .ok (a, rest) => readOne (.jump a) rest
    | .error e => .error e

/-- `DecodeOne()`: one instruction from the front of the stream, and the rest (R65). -/
def decodeOne (bits : List Bool) : Except DecodeError (Instr × List Bool) :=
  match readOpcode bits with
  | .ok (op, rest) => readOperands op rest
  | .error e => .error e

/-- The loop of `DecodeAll()` (R66): the end of the stream is tested only between instructions. The fuel is the length
of the stream, which is enough because every instruction takes a bit. -/
def decodeLoop : Nat → List Bool → Except DecodeError (List Instr)
  | _, [] => .ok []
  | 0, _ :: _ => .error .truncatedProgram
  | fuel + 1, b :: bits =>
    match decodeOne (b :: bits) with
    | .ok (i, rest) =>
      match decodeLoop fuel rest with
      | .ok p => .ok (i :: p)
      | .error e => .error e
    | .error e => .error e

/-- Decode a whole stream of program bits. -/
def decodeBits (bits : List Bool) : Except DecodeError (List Instr) :=
  decodeLoop bits.length bits

/-- `DecodeAll()` as a function of VALUE: the program, or the fault with no partial program (R60, R66, R67). -/
def decodeAll (v : Nat) : Except DecodeError (List Instr) :=
  decodeBits (programBits v)

/-! ### Encoding -/

/-- `unary(k)`: `k` ones and a zero (R51). -/
def unary (k : Nat) : List Bool :=
  List.replicate k true ++ [false]

/-- `bits(I)`: the stream bits of one instruction (R48, R56). -/
def encode : Instr → List Bool
  | .print a => [false, false] ++ unary a
  | .input a => [false, true] ++ unary a
  | .jump a b => [true, true] ++ unary a ++ unary b
  | .inc a => [true, false, false] ++ unary a
  | .dec a => [true, false, true] ++ unary a

/-- The number whose binary form is that of `acc` followed by the given bits (R45). -/
def appendBits (acc : Nat) (bits : List Bool) : Nat :=
  bits.foldl (fun n b => 2 * n + b.toNat) acc

/-- `encode(PROG)`: the integer whose binary form is `1 ++ bits(PROG[0]) ++ ...` (R45, R56). -/
def encodeProgram (p : List Instr) : Nat :=
  appendBits 1 (p.flatMap encode)

/-! ### A word as the opcode table numbers it -/

/-- The stream bits of a word numbered as the opcode table numbers a row's prefix: read as one number, its last stream
bit is bit 0, so the first stream bit is the highest. A prefix has at least two bits. DEDUCED (log 13). Safe. -/
def tableBits (w : Nat) : List Bool :=
  bitsBelow w (max 2 (blen w))

/-- The instruction the decoder reads from a word of the opcode table, whose operand bits beyond the word are zeros. The
prefix itself must lie within the word. DEDUCED (log 13). Safe. -/
def decodeTableWord (_nbits w : Nat) : Option Instr :=
  match readOpcode (tableBits w) with
  | .ok (op, rest) =>
    match readOperands op (rest ++ [false, false]) with
    | .ok (i, _) => some i
    | .error _ => none
  | .error _ => none

end Sys2Proof
end

