-- ==== Sys2Proof/Machine/Memory.lean ====
section
/-! DEFINITION. The variable store as plain data: a list of (index, byte) pairs in one canonical form, and its read and
write (spec/10_state.md R17, spec/20_memory.md R30, R40). -/

namespace Sys2Proof.Machine

/-- The contents of the variable store: a total map from indices to bytes, the non-zero ones listed (R17). -/
abbrev Memory := List Host.Cell

/-- What an unlisted index reads as: "reading any never-yet-written index returns zero" (R17). -/
def Memory.unlisted : Byte := 0#8

/-- The canonical form: indices strictly rising, and no entry equal to what an unlisted index reads as (log 16). -/
abbrev Memory.wf (m : Memory) : Prop :=
  m.Pairwise (fun c d => c.1 < d.1) ∧ ∀ c ∈ m, c.2 ≠ Memory.unlisted

/-- `V[i]`: the byte of index `i`, without side effect (R8, R17). -/
def Memory.read : Memory → Nat → Byte
  | [], _ => Memory.unlisted
  | (a, b) :: rest, i => if i = a then b else Memory.read rest i

/-- Put a cell before the first cell of a higher index. -/
def Memory.insert (c : Host.Cell) : Memory → Memory
  | [] => [c]
  | d :: rest => if c.1 < d.1 then c :: d :: rest else d :: Memory.insert c rest

/-- `V[i] <- b`: the old entry of `i` goes, and a new one is listed unless `b` is what an unlisted index reads as (R80). -/
def Memory.write (m : Memory) (i : Nat) (b : Byte) : Memory :=
  let others := m.filter (fun c => c.1 != i)
  if b = Memory.unlisted then others else Memory.insert (i, b) others

end Sys2Proof.Machine
end

