-- ==== Sys2Proof/Machine/Parameters.lean ====
section
/-! DEFINITION. The parameter values the spec recommends (spec/00_scope.md R6; spec/92_eei_decisions.md D1, D3, D4, D5). -/

namespace Sys2Proof.Machine

/-- The recommended whitespace set: tab, line feed, vertical tab, form feed, carriage return, space. PRESUMED by the spec for
0x0B, 0x0C, 0x0D (R89, G1, log 5). Unsafe for inputs that hold one of those three bytes. -/
def recommendedWs : List Byte :=
  [0x09#8, 0x0A#8, 0x0B#8, 0x0C#8, 0x0D#8, 0x20#8]

/-- The spec's values: `W = 64`, `OFFSET_SIGNED = true`, `EOF_POLICY = unchanged` (R6). DESIGN CHOICE of the spec (logs
2, 3, 4). Unsafe where a claim uses the value. -/
def recommendedParams : Params :=
  { width := 64, offsetSigned := true, eofPolicy := .unchanged, ws := recommendedWs }

end Sys2Proof.Machine
end

