-- ==== Sys2Proof/Machine/State.lean ====
section
/-! DEFINITION. All the state of the core (spec/10_state.md R10 to R24), its reset values (R27, spec/70_reset_and_hazards.md
R120), and the reasons a step or a Host move can stop. -/

namespace Sys2Proof.Machine

/-- Which agent may step (R23). -/
inductive Phase where
  /-- Reset done, no integer received yet. -/
  | idle
  /-- The Decoder steps. -/
  | decode
  /-- The Machine steps. -/
  | run
  /-- The run is over, not an error. -/
  | halted
  /-- Decoding failed; the Machine never ran. -/
  | fault
deriving DecidableEq, Repr

/-- Why PHASE is FAULT (R24). -/
inductive Cause where
  | none
  | truncatedProgram
deriving DecidableEq, Repr

/-- A node of the dispatch tree: what the Decoder holds while it decodes one instruction (R12, R50). -/
inductive TreeNode where
  /-- No prefix bit seen: an instruction boundary. -/
  | root
  /-- Prefix bit `0` seen. -/
  | p0
  /-- Prefix bit `1` seen. -/
  | p1
  /-- Prefix bits `1, 0` seen. -/
  | p10
  /-- The opcode is selected and `k` ones of its first operand are read. -/
  | operandA (op : Opcode) (k : Nat)
  /-- JUMP's first operand is `c` and `k` ones of its second operand are read. -/
  | operandB (c k : Nat)
deriving DecidableEq, Repr

/-- The Decoder's working state (R12). DESIGN CHOICE (log 10): it also says that the sentinel search of this launch is still
to do, so that the search is a step of the Decoder. Safe. -/
inductive DecoderWork where
  /-- The Host has launched and `DecodeAll()` has not begun. -/
  | search
  /-- Decoding, at a node of the dispatch tree. -/
  | node (n : TreeNode)
deriving DecidableEq, Repr

/-- Why a step stops with a fault: it never does. The Machine "raises no fault of any kind" (R77), and the Decoder's one
fault is a next state with PHASE = FAULT and CAUSE = TruncatedProgram (R67, R108). DESIGN CHOICE (log 7). Safe. -/
inductive Fault
deriving DecidableEq, Repr

/-- Why a step or a move of the Host has no meaning in the model. -/
inductive Refusal where
  /-- Raised by `exec` for an instruction without a meaning (by none: all five have one). Safe. -/
  | notModelled (mnemonic : String)
  /-- Raised by the Host's launch of `v ≥ 2^W`: "the core's behaviour for it is not defined (refuse ...)" (R125, D2, U7). Safe. -/
  | launchTooWide
  /-- Raised by the Host's launch in a phase other than IDLE: "One reset allows one launch" (R121, R123, D26). Safe. -/
  | launchNotIdle
  /-- Raised by the Host's append to a closed input stream: it "may append to IN while INCLOSED is false" (R21, R125). Safe. -/
  | inputClosed
deriving DecidableEq, Repr

/-- The state of the core, one field per element of R27's table, and the parameters of the run. -/
structure State where
  /-- VALUE, the integer input (R10); a natural number (R63, D1, log 2). -/
  value : Nat
  /-- CUR, the bit cursor: index of the next bit, −1 when exhausted (R11). -/
  cur : Int
  /-- The Decoder's working state (R12). -/
  work : DecoderWork
  /-- PROG, the instruction sequence (R14). -/
  prog : List Instr
  /-- pc, the instruction pointer, a mathematical integer (R15, D11). -/
  pc : Int
  /-- V, the variable store (R17). -/
  vars : Memory
  /-- VLEN, the length of the variable store (R20). -/
  vlen : Nat
  /-- IN, the bytes supplied so far (R21). -/
  inBytes : List Byte
  /-- INPOS, how many of them are consumed (R21). -/
  inPos : Nat
  /-- INCLOSED, the Host has said no more bytes will come (R21). -/
  inClosed : Bool
  /-- OUT, the bytes written so far, in order (R22). -/
  out : List Byte
  /-- PHASE (R23). -/
  phase : Phase
  /-- CAUSE (R24). -/
  cause : Cause
  /-- The parameters of the run: the model's own field (R6, R26, log 1). -/
  params : Params
deriving DecidableEq, Repr

/-- The reset state under given parameters: every element at the value of R27's table (R120). VALUE's is the spec's, the
source leaves it unspecified (D18, log 15). -/
def State.resetWith (p : Params) : State :=
  { value := 0
    cur := -1
    work := .node .root
    prog := []
    pc := 0
    vars := []
    vlen := 0
    inBytes := []
    inPos := 0
    inClosed := false
    out := []
    phase := .idle
    cause := .none
    params := p }

/-- The machine right after reset (R27, R120), with the parameter values the spec recommends (R6). -/
def State.reset : State :=
  State.resetWith recommendedParams

end Sys2Proof.Machine
end

