-- ==== Sys2Proof/Machine/Flags.lean ====
section
/-! DEFINITION. The core has no flags (spec/10_state.md R25): INC and DEC set nothing, and JUMP tests a byte directly. What
stands here is the arithmetic of a byte (spec/43_arith.md R90 to R92) and JUMP's condition (spec/44_jump.md R95). -/

namespace Sys2Proof.Machine

/-- `(x + 1) mod 256` (R90). -/
def incByte (x : Byte) : Byte :=
  BitVec.ofNat 8 ((x.toNat + 1) % 256)

/-- `(x + 255) mod 256` (R91). -/
def decByte (x : Byte) : Byte :=
  BitVec.ofNat 8 ((x.toNat + 255) % 256)

/-- A jump is taken when the condition variable's byte is zero (R95). -/
def jumpTaken (x : Byte) : Bool :=
  x == 0#8

end Sys2Proof.Machine
end

