-- ==== Sys2Proof/Machine/Operands.lean ====
section
/-! DEFINITION. How an operand's byte is read. The one operand form is a variable index used as it is (spec/30_encoding.md
R51, spec/41_machine_cycle.md R79); the only place its byte is widened is the jump offset (spec/44_jump.md R96). -/

namespace Sys2Proof.Machine

/-- `V[i]` of a state, without side effect (R8, R17). -/
def State.var (s : State) (i : Nat) : Byte :=
  s.vars.read i

/-- `zext_8(b)`: the byte as 0..255 (R7). -/
def zext8 (b : Byte) : Int :=
  b.toNat

/-- `sext_8(b)`: `b` if `b < 128`, else `b − 256` (R7, G2). -/
def sext8 (b : Byte) : Int :=
  if b.toNat < 128 then b.toNat else (b.toNat : Int) - 256

/-- `Offset(b)`: signed or unsigned, by the parameter OFFSET_SIGNED (R96, D3, 90_conflicts.md C1, log 3). -/
def offset (signed : Bool) (b : Byte) : Int :=
  if signed then sext8 b else zext8 b

end Sys2Proof.Machine
end

