-- ==== Sys2Proof/Machine/Ops.lean ====
section
/-! DEFINITION. The named operations over the state: the variable access primitives (spec/41_machine_cycle.md R79 to R81), the
stream primitives (spec/20_memory.md R33, R34), the writes of pc (spec/10_state.md R16), the fetch and the end of a run
(R75, R76), and taking the one fault (spec/40_decoder.md R67). There is no return from it (spec/60_exceptions.md R108). -/

namespace Sys2Proof.Machine

/-! ### Variables -/

/-- `Grow(i)`: `VLEN <- max(VLEN, i + 1)` (R81). -/
def grow (i : Nat) (s : State) : State :=
  { s with vlen := max s.vlen (i + 1) }

/-- `MemRead(i, 1)`: grow the store to cover `i`, then return `V[i]` (R79). -/
def memRead (i : Nat) (s : State) : Byte × State :=
  let s' := grow i s
  (s'.var i, s')

/-- `MemWrite(i, 1, b)`: grow the store to cover `i`, then `V[i] <- b` (R80). -/
def memWrite (i : Nat) (b : Byte) (s : State) : State :=
  let s' := grow i s
  { s' with vars := s'.vars.write i b }

/-! ### Streams -/

/-- `OutPut(c)`: `OUT <- OUT ++ [c]`; it never holds and never fails (R34). -/
def outPut (c : Byte) (s : State) : State :=
  { s with out := s.out ++ [c] }

/-- The three outcomes of `InNext()` (R33). -/
inductive InResult where
  | byte (c : Byte)
  | eof
  | hold
deriving DecidableEq, Repr

/-- `InNext()`: the next byte, which is consumed; or the end of input; or a hold (R33). -/
def inNext (s : State) : InResult × State :=
  match s.inBytes[s.inPos]? with
  | some c => (.byte c, { s with inPos := s.inPos + 1 })
  | none => if s.inClosed then (.eof, s) else (.hold, s)

/-- Is the byte one INPUT skips (R89)? -/
def isWs (p : Params) (c : Byte) : Bool :=
  p.ws.contains c

/-- The loop of INPUT (R86): call `InNext()` until it returns something other than a byte of WS, which is consumed and
dropped. The fuel bounds the bytes skipped. -/
def skipWs : Nat → State → InResult × State
  | 0, s => inNext s
  | fuel + 1, s =>
    match inNext s with
    | (.byte c, s') => if isWs s.params c then skipWs fuel s' else (.byte c, s')
    | (.eof, s') => (.eof, s')
    | (.hold, s') => (.hold, s')

/-- The next byte outside WS, or the end of input, or a hold (R86). No more bytes can be skipped than remain. -/
def nextChar (s : State) : InResult × State :=
  skipWs (s.inBytes.length - s.inPos) s

/-! ### The instruction pointer -/

/-- `pc <- target` (R8, R15): over ℤ, no wrap. -/
def setPc (target : Int) (s : State) : State :=
  { s with pc := target }

/-- `pc <- pc + 1` (R16). -/
def advance (s : State) : State :=
  setPc (s.pc + 1) s

/-- The fetch: `PROG[pc]`, or nothing when `pc < 0` or `pc ≥ N` (R75). -/
def fetch (s : State) : Option Instr :=
  if s.pc < 0 then none else s.prog[s.pc.toNat]?

/-! ### Phases -/

/-- `halt`: `PHASE <- HALTED`; nothing else changes (R76). -/
def halt (s : State) : State :=
  { s with phase := .halted }

/-- Taking the one fault: `PROG <- []`, `CAUSE <- TruncatedProgram`, `PHASE <- FAULT` (R67, R100), the instruction being built
discarded (R12, log 23). Nothing is saved and nothing returns from it (R108). -/
def raiseTruncated (s : State) : State :=
  { s with prog := [], cause := .truncatedProgram, phase := .fault, work := .node .root }

/-- A number for a cause where one is needed (R24, D17). -/
def causeCode : Cause → Nat
  | .none => 0
  | .truncatedProgram => 1

/-- N, the instruction count (R14). -/
def instrCount (s : State) : Nat :=
  s.prog.length

end Sys2Proof.Machine
end

