-- ==== Sys2Proof/Machine/Decoder.lean ====
section
/-! DEFINITION. The Decoder as an agent, one bit a step: the sentinel search and the bit cursor (spec/40_decoder.md R61, R62),
the dispatch tree (spec/30_encoding.md R50), the clean end and the truncation (R66, R67). DESIGN CHOICE (log 10): the
granularity; the spec allows any (D19). Safe. -/

namespace Sys2Proof.Machine

/-- Where the sentinel search leaves the cursor: the bit below the highest set bit, −1 for 0 and 1 (R61). -/
def sentinelCur (v : Nat) : Int :=
  if v = 0 then -1 else (blen v : Int) - 2

/-- `SentinelSearch()` (R61). -/
def sentinelSearch (s : State) : State :=
  { s with cur := sentinelCur s.value }

/-- `NextBit()`: the bit at the cursor, which moves down; or the fault when the cursor is exhausted (R62). -/
def nextBit (s : State) : Except DecodeError (Bool × State) :=
  if s.cur < 0 then .error .truncatedProgram
  else .ok (s.value.testBit s.cur.toNat, { s with cur := s.cur - 1 })

/-- An opcode's first operand is read and is `k`: the instruction is whole, but for JUMP, whose second operand comes next
(R50, R65). -/
def finishOperandA (op : Opcode) (k : Nat) : TreeNode × Option Instr :=
  match op with
  | .print => (.root, some (.print k))
  | .input => (.root, some (.input k))
  | .inc => (.root, some (.inc k))
  | .dec => (.root, some (.dec k))
  | .jump => (.operandB k 0, none)

/-- The edge of the dispatch tree that a bit takes, and the instruction it completes, if any (R50). -/
def feed : TreeNode → Bool → TreeNode × Option Instr
  | .root, b => (if b then .p1 else .p0, none)
  | .p0, b => (.operandA (if b then .input else .print) 0, none)
  | .p1, b => (if b then .operandA .jump 0 else .p10, none)
  | .p10, b => (.operandA (if b then .dec else .inc) 0, none)
  | .operandA op k, true => (.operandA op (k + 1), none)
  | .operandA op k, false => finishOperandA op k
  | .operandB c k, true => (.operandB c (k + 1), none)
  | .operandB c k, false => (.root, some (.jump c k))

/-- One step in the tree: a clean end at an instruction boundary with no bit left (R66), the fault inside an instruction with
no bit left (R67), otherwise one bit (R50). -/
def treeStep (n : TreeNode) (s : State) : State :=
  if n = .root ∧ s.cur < 0 then { s with phase := .run }
  else
    match nextBit s with
    | .error .truncatedProgram => raiseTruncated s
    | .ok (b, s') => { s' with work := .node (feed n b).1, prog := s'.prog ++ (feed n b).2.toList }

/-- One step of the Decoder, taken while PHASE is DECODE: `PROG <- []` and the sentinel search first (R66), then one bit a
step. -/
def decodeStep (s : State) : State :=
  match s.work with
  | .search => sentinelSearch { s with prog := [], work := .node .root }
  | .node n => treeStep n s

end Sys2Proof.Machine
end

