-- ==== Sys2Proof/Machine/Arith.lean ====
section
/-! DEFINITION. Arithmetic: INC and DEC (spec/43_arith.md R90 to R92). -/

namespace Sys2Proof.Machine

/-- `INC(v)` (R90). -/
def execInc (v : Nat) (s : State) : Host.Outcome State Fault Refusal :=
  let (x, s1) := memRead v s
  .next (advance (memWrite v (incByte x) s1))

/-- `DEC(v)` (R91). -/
def execDec (v : Nat) (s : State) : Host.Outcome State Fault Refusal :=
  let (x, s1) := memRead v s
  .next (advance (memWrite v (decByte x) s1))

end Sys2Proof.Machine
end

