-- ==== Sys2Proof/Machine/CharIo.lean ====
section
/-! DEFINITION. Character I/O: PRINT and INPUT (spec/42_io.md R85 to R89). -/

namespace Sys2Proof.Machine

/-- `PRINT(v)` (R85). -/
def execPrint (v : Nat) (s : State) : Host.Outcome State Fault Refusal :=
  let (c, s1) := memRead v s
  .next (advance (outPut c s1))

/-- `EndOfInput(v)`: by EOF_POLICY the variable keeps its value or becomes 0; it is referenced in both cases (R88, D4, log 4). -/
def endOfInput (v : Nat) (s : State) : State :=
  match s.params.eofPolicy with
  | .unchanged => grow v s
  | .zero => memWrite v 0#8 s

/-- `INPUT(v)` (R86 to R89), one step with all its skipping. A hold is a next state in which the whitespace already skipped
is consumed and pc still stands at the INPUT (R87, log 9). -/
def execInput (v : Nat) (s : State) : Host.Outcome State Fault Refusal :=
  match nextChar s with
  | (.byte c, s1) => .next (advance (memWrite v c s1))
  | (.eof, s1) => .next (advance (endOfInput v s1))
  | (.hold, s1) => .next s1

end Sys2Proof.Machine
end

