-- ==== Sys2Proof/Machine/Jump.lean ====
section
/-! DEFINITION. Control transfer: JUMP (spec/44_jump.md R95 to R97). -/

namespace Sys2Proof.Machine

/-- `JUMP(c, o)`: taken when `V[c]` is zero, relative to its own position and with no further +1; the offset variable is
referenced only when the jump is taken (R95, D21). -/
def execJump (c o : Nat) (s : State) : Host.Outcome State Fault Refusal :=
  let (x, s1) := memRead c s
  if jumpTaken x then
    let (d, s2) := memRead o s1
    .next (setPc (s2.pc + offset s2.params.offsetSigned d) s2)
  else .next (advance s1)

end Sys2Proof.Machine
end

