-- ==== Sys2Proof/Machine/Dispatch.lean ====
section
/-! DEFINITION. The case split of the Machine's cycle (spec/41_machine_cycle.md R75): one arm per instruction. -/

namespace Sys2Proof.Machine

def exec (i : Instr) (s : State) : Host.Outcome State Fault Refusal :=
  match i with
  | .print v => Sys2Proof.Machine.execPrint v s
  | .input v => Sys2Proof.Machine.execInput v s
  | .jump c o => Sys2Proof.Machine.execJump c o s
  | .inc v => Sys2Proof.Machine.execInc v s
  | .dec v => Sys2Proof.Machine.execDec v s

end Sys2Proof.Machine
end

