-- ==== Sys2Proof/Machine/Cycle.lean ====
section
/-! DEFINITION. One step of each agent of the core (spec/41_machine_cycle.md R75; spec/10_state.md R23), and the program
store as a launch of a given program leaves it. -/

namespace Sys2Proof.Machine

/-- `MachineStep()`, taken while PHASE is RUN: halt when pc is out of range, otherwise fetch and execute (R75, R76). -/
def machineStep (s : State) : Host.Outcome State Fault Refusal :=
  match fetch s with
  | none => .next (halt s)
  | some i => exec i s

/-- One step of the core, by PHASE (R23). In IDLE, HALTED and FAULT no agent of the core has a step and the state stays
(R23, R108, R126). DESIGN CHOICE (log 8): staying is a next state. Safe. -/
def coreStep (s : State) : Host.Outcome State Fault Refusal :=
  match s.phase with
  | .idle => .next s
  | .decode => .next (decodeStep s)
  | .run => machineStep s
  | .halted => .next s
  | .fault => .next s

/-- The state as the Decoder leaves it when the integer launched is the image of the program `p`: PROG holds `p`, the cursor is
exhausted, pc is at the entry point (R66, R122). Variables and streams are as they were. -/
def loadProgram (p : List Instr) (s : State) : State :=
  { s with value := encodeProgram p, cur := -1, work := .node .root, prog := p, pc := 0, phase := .run, cause := .none }

/-- The program store loaded with one word of the opcode table (log 12), or the fault if the word is no instruction. -/
def loadTableWord (nbits w : Nat) (s : State) : State :=
  match decodeTableWord nbits w with
  | some i => loadProgram [i] s
  | none => raiseTruncated s

end Sys2Proof.Machine
end

