-- ==== Sys2Proof/Machine/Step.lean ====
section
/-! DEFINITION. The step of the core, and how one instruction word is placed where the next step fetches it. -/

namespace Sys2Proof.Machine

/-- One step of the core (spec/10_state.md R23, spec/41_machine_cycle.md R75). -/
def step (s : State) : Host.Outcome State Fault Refusal :=
  coreStep s

/-- The state with one instruction of the opcode table as its whole decoded program, about to be fetched (log 12). -/
def State.withFetchWord (s : State) (nbits w : Nat) : State :=
  loadTableWord nbits w s

end Sys2Proof.Machine
end

