-- ==== Sys2Proof/Machine/HostMoves.lean ====
section
/-! DEFINITION. What the Host does to the core (spec/70_reset_and_hazards.md R121, R123, R125; spec/10_state.md R21). Each move
lands between two steps of the core (log 14). -/

namespace Sys2Proof.Machine

/-- A move of the Host that changes the core's state (R125). -/
inductive HostMove where
  /-- Hand over an integer and start (R123). -/
  | launch (v : Nat)
  /-- Append one byte to the input stream (R21). -/
  | append (b : Byte)
  /-- Say that no more input will come (R21). -/
  | close
  /-- Reset (R120, R121). -/
  | reset
deriving DecidableEq, Repr

/-- `Launch(v)`: requires PHASE = IDLE and `v < 2^W`; `VALUE <- v`, `PHASE <- DECODE`, and the Decoder begins (R123). -/
def launch (v : Nat) (s : State) : Host.Outcome State Fault Refusal :=
  if s.phase = .idle then
    if v < 2 ^ s.params.width then .next { s with value := v, phase := .decode, work := .search }
    else .refused .launchTooWide
  else .refused .launchNotIdle

/-- Append a byte while the stream is open (R21). -/
def appendInput (b : Byte) (s : State) : Host.Outcome State Fault Refusal :=
  if s.inClosed then .refused .inputClosed else .next { s with inBytes := s.inBytes ++ [b] }

/-- Close the stream; closed is for ever (R21). -/
def closeInput (s : State) : Host.Outcome State Fault Refusal :=
  .next { s with inClosed := true }

/-- Reset in any phase (R121). The parameters are those of the core and stay (log 1). -/
def hostReset (s : State) : Host.Outcome State Fault Refusal :=
  .next (State.resetWith s.params)

/-- One move of the Host. -/
def hostMove (m : HostMove) (s : State) : Host.Outcome State Fault Refusal :=
  match m with
  | .launch v => launch v s
  | .append b => appendInput b s
  | .close => closeInput s
  | .reset => hostReset s

end Sys2Proof.Machine
end

