-- ==== Sys2Proof/Machine/System.lean ====
section
/-! DEFINITION. The core and the Host together: moves of either, in any order (spec/00_scope.md R5, R125). -/

namespace Sys2Proof.Machine

/-- Who moves. -/
inductive Move where
  | core
  | host (m : HostMove)
deriving DecidableEq, Repr

/-- One move of the system. -/
def act (m : Move) (s : State) : Host.Outcome State Fault Refusal :=
  match m with
  | .core => step s
  | .host h => hostMove h s

/-- A sequence of moves, in order, stopping at the first that is refused. -/
def actAll : List Move → State → Host.Outcome State Fault Refusal
  | [], s => .next s
  | m :: ms, s =>
    match act m s with
    | .next s' => actAll ms s'
    | .fault r => .fault r
    | .refused r => .refused r

/-- `k` steps of the core, with no move of the Host between them. -/
def runSteps : Nat → State → Host.Outcome State Fault Refusal
  | 0, s => .next s
  | k + 1, s =>
    match step s with
    | .next s' => runSteps k s'
    | .fault r => .fault r
    | .refused r => .refused r

end Sys2Proof.Machine
end

