-- ==== Sys2Proof/Safety.lean ====
section
/-! DEFINITION. The terms claims are stated in: what the Host can see, what the Decoder has still to append, the invariant of
every state the core and the Host can reach, and repeated execution of one instruction. -/

namespace Sys2Proof.Machine

/-! ### What the Host sees -/

/-- What the core gives back to the Host: PHASE, CAUSE, INPOS and OUT at any time, N outside DECODE, and pc and V once HALTED
(R125, D10). DESIGN CHOICE (log 24): that N is not shown in DECODE; the spec makes N readable (D10) without saying when, and lets
no agent observe a partial decode (R12, D19). Unsafe for claims that two states of DECODE look the same.
DESIGN CHOICE (log 25): that VLEN is not shown, after the halt too; D22 lists it as readable by the Host until reset, while R39 and
D12 call it unobservable, R20 hidden, and R125 does not list it. Unsafe for claims that two states which differ in VLEN look the
same. -/
structure HostView where
  phase : Phase
  cause : Cause
  /-- N, or nothing while the Decoder is still appending to PROG (log 24). -/
  count : Option Nat
  inPos : Nat
  out : List Byte
  /-- Once HALTED, the final pc and V (R125); VLEN is left out (D22, log 25). -/
  final : Option (Int × Memory)
deriving DecidableEq, Repr

/-- The Host's view of a state (R125). In DECODE it shows no N, so that the partial count stays unobserved: DESIGN CHOICE
(log 24). Once HALTED it shows pc and V and not VLEN: DESIGN CHOICE (log 25). -/
def State.hostView (s : State) : HostView :=
  { phase := s.phase
    cause := s.cause
    count := if s.phase = .decode then none else some (instrCount s)
    inPos := s.inPos
    out := s.out
    final := if s.phase = .halted then some (s.pc, s.vars) else none }

/-- The bytes of the input stream not yet consumed (R21). -/
def State.inLeft (s : State) : List Byte :=
  s.inBytes.drop s.inPos

/-! ### What the Decoder has still to append -/

/-- The instructions a stream completes from a node of the dispatch tree, or the fault (R50, R66, R67). -/
def decodeFrom : TreeNode → List Bool → Except DecodeError (List Instr)
  | n, [] => if n = .root then .ok [] else .error .truncatedProgram
  | n, b :: bits =>
    match decodeFrom (feed n b).1 bits with
    | .ok p => .ok ((feed n b).2.toList ++ p)
    | .error e => .error e

/-- The bits not yet consumed: those at and below the cursor (R11, R31). -/
def State.bitsLeft (s : State) : List Bool :=
  bitsBelow s.value (s.cur + 1).toNat

/-- What PROG will be when the Decoder, now at node `n`, has read the bits left. -/
def State.decodeResult (s : State) (n : TreeNode) : Except DecodeError (List Instr) :=
  match decodeFrom n s.bitsLeft with
  | .ok p => .ok (s.prog ++ p)
  | .error e => .error e

/-! ### The invariant -/

/-- What holds of every state that the core and the Host can reach. -/
structure State.Inv (s : State) : Prop where
  /-- The variable store is canonical data (log 16). -/
  vars_wf : s.vars.wf
  /-- `V[i] = 0` for all `i ≥ VLEN` (R20). -/
  vars_below : ∀ i, s.vlen ≤ i → s.var i = 0#8
  /-- `INPOS ≤ |IN|` (R21). -/
  inPos_le : s.inPos ≤ s.inBytes.length
  /-- `VALUE < 2^W` (R10). -/
  value_lt : s.value < 2 ^ s.params.width
  /-- The cursor is exhausted or points at a bit (R11). -/
  cur_ge : -1 ≤ s.cur
  /-- The cursor never points at or above the sentinel (R11, 90_conflicts.md C4, log 11). -/
  cur_le : s.cur ≤ max (-1) ((blen s.value : Int) - 2)
  /-- CAUSE says why PHASE is FAULT, and is `none` in every other phase (R24). -/
  cause_iff : s.cause = .truncatedProgram ↔ s.phase = .fault
  /-- In IDLE no integer is received (R23, R27). -/
  idle : s.phase = .idle → s.value = 0 ∧ s.prog = []
  /-- While decoding, PROG and the bits left give what `DecodeAll()` gives (R66). -/
  decoding : s.phase = .decode → ∀ n, s.work = .node n → s.decodeResult n = decodeAll s.value
  /-- Outside DECODE the Decoder is exhausted and at rest (R11, R12). -/
  rest : s.phase ≠ .decode → s.cur = -1 ∧ s.work = .node .root
  /-- The Machine runs exactly the program VALUE decodes to (R66, R129). -/
  decoded : s.phase = .run ∨ s.phase = .halted → decodeAll s.value = .ok s.prog
  /-- After the fault PROG is empty, and VALUE is truncated (R67). -/
  faulted : s.phase = .fault → decodeAll s.value = .error .truncatedProgram ∧ s.prog = []
  /-- Before the Machine starts, and if it never does, nothing has executed (R67, R105, R129). -/
  unstarted : s.phase = .idle ∨ s.phase = .decode ∨ s.phase = .fault →
    s.pc = 0 ∧ s.vars = [] ∧ s.vlen = 0 ∧ s.inPos = 0 ∧ s.out = []
  /-- pc stays within `−128 .. N + 254` (R15). -/
  pc_range : -128 ≤ s.pc ∧ s.pc ≤ (instrCount s : Int) + 254
  /-- A halted run has pc outside `0 .. N − 1` (R76). -/
  halted : s.phase = .halted → s.pc < 0 ∨ (instrCount s : Int) ≤ s.pc

/-! ### What an instruction leaves alone -/

/-- The elements no instruction writes are the same in both states: VALUE, CUR, the working state, PROG, IN, INCLOSED, PHASE,
CAUSE and the parameters (R21, R24, R43, R74). -/
def State.SameControl (s t : State) : Prop :=
  t.value = s.value ∧ t.cur = s.cur ∧ t.work = s.work ∧ t.prog = s.prog ∧ t.inBytes = s.inBytes ∧
  t.inClosed = s.inClosed ∧ t.phase = s.phase ∧ t.cause = s.cause ∧ t.params = s.params

/-! ### Repeated execution -/

/-- The effect of one instruction `n` times over (R92). -/
def execTimes : Nat → Instr → State → Host.Outcome State Fault Refusal
  | 0, _, s => .next s
  | n + 1, i, s =>
    match exec i s with
    | .next s' => execTimes n i s'
    | .fault r => .fault r
    | .refused r => .refused r

end Sys2Proof.Machine
end

