-- ==== Sys2Proof/Certificates/Slice0/Obligations.lean ====
section
/-! DEFINITION. The statements for the provers, one definition each. They are about every state, whatever the parameter values
in it, unless a hypothesis says otherwise. -/

open Sys2Proof Sys2Proof.Machine

/-- 00 selects PRINT, 01 INPUT, 11 JUMP, 100 INC, 101 DEC, whatever follows; the third bit is needed only after 1,0; fewer
bits than a prefix needs are a truncation. PRINT, INPUT, INC and DEC then read one variable index and JUMP reads two.
(States R47.) -/
def Obligations.PrefixCodeTable : Prop :=
  (∀ rest : List Bool,
    readOpcode (false :: false :: rest) = .ok (.print, rest) ∧
    readOpcode (false :: true :: rest) = .ok (.input, rest) ∧
    readOpcode (true :: true :: rest) = .ok (.jump, rest) ∧
    readOpcode (true :: false :: false :: rest) = .ok (.inc, rest) ∧
    readOpcode (true :: false :: true :: rest) = .ok (.dec, rest)) ∧
  (∀ b : Bool, readOpcode [b] = .error .truncatedProgram) ∧
  readOpcode [] = .error .truncatedProgram ∧ readOpcode [true, false] = .error .truncatedProgram ∧
  (∀ (a b : Nat) (rest : List Bool),
    readOperands .print (unary a ++ rest) = .ok (.print a, rest) ∧
    readOperands .input (unary a ++ rest) = .ok (.input a, rest) ∧
    readOperands .inc (unary a ++ rest) = .ok (.inc a, rest) ∧
    readOperands .dec (unary a ++ rest) = .ok (.dec a, rest) ∧
    ∃ i, readOperands .jump (unary a ++ unary b ++ rest) = .ok (i, rest))

/-- Reading an index from a stream gives k and a rest exactly when the stream is k ones, a zero and that rest; it fails
with the truncation exactly when no zero is left in the stream, an empty stream included. (States R64.) -/
def Obligations.UnaryIndexRead : Prop :=
  ∀ bits : List Bool,
    (∀ k rest, readIndex bits = .ok (k, rest) ↔ bits = List.replicate k true ++ false :: rest) ∧
    (readIndex bits = .error .truncatedProgram ↔ ∀ b ∈ bits, b = true)

/-- The bits of PRINT(a), INPUT(a), JUMP(a, b), INC(a), DEC(a) are 00, 01, 11, 100, 101 followed by unary(a) (and unary(b)
for JUMP, the condition variable first: decision D6, log 6); their lengths are a+3, a+3, a+b+4, a+4, a+4, so at least
3. (Rests on 30_encoding.md section 2 (rule R48); 30_encoding.md section 2 (rule R49).) -/
def Obligations.InstructionBitLayout : Prop :=
  (∀ a b : Nat,
    encode (.print a) = [false, false] ++ unary a ∧ encode (.input a) = [false, true] ++ unary a ∧
    encode (.jump a b) = [true, true] ++ unary a ++ unary b ∧
    encode (.inc a) = [true, false, false] ++ unary a ∧ encode (.dec a) = [true, false, true] ++ unary a ∧
    unary a = List.replicate a true ++ [false] ∧
    (encode (.print a)).length = a + 3 ∧ (encode (.input a)).length = a + 3 ∧
    (encode (.jump a b)).length = a + b + 4 ∧ (encode (.inc a)).length = a + 4 ∧ (encode (.dec a)).length = a + 4) ∧
  (∀ i : Instr, (encode i).length = i.bitLength ∧ 3 ≤ i.bitLength)

/-- Whatever three or more bits stand in front, an opcode is selected: there is no reserved or undefined prefix. (Rests on
30_encoding.md section 4 (rule R53).) -/
def Obligations.EveryStreamSelectsAnOpcode : Prop :=
  ∀ bits : List Bool, 3 ≤ bits.length → ∃ op rest, readOpcode bits = .ok (op, rest)

/-- For every stream, instruction and rest: decoding one instruction gives that instruction and rest exactly when the
stream is the instruction's encoding followed by the rest. Every operand, at every value, is read back. (Rests on
40_decoder.md section 2 (rule R65); 30_encoding.md section 5 (rule R56).) -/
def Obligations.DecodeOneInvertsEncode : Prop :=
  ∀ (bits : List Bool) (i : Instr) (rest : List Bool), decodeOne bits = .ok (i, rest) ↔ bits = encode i ++ rest

/-- If the bits of two instructions, each followed by anything, form the same stream, then the instructions are the same
and so is what follows. (Rests on 30_encoding.md section 4 (rule R53).) -/
def Obligations.EncodingsArePrefixFree : Prop :=
  ∀ (i j : Instr) (r r' : List Bool), encode i ++ r = encode j ++ r' → i = j ∧ r = r'

/-- For every instruction sequence P, with every operand at every value, decoding encode(P) gives P; the empty program's
integer is 1. (Rests on 30_encoding.md section 5 (rule R56).) -/
def Obligations.ProgramDecodesFromItsImage : Prop :=
  (∀ p : List Instr, decodeAll (encodeProgram p) = .ok p) ∧ encodeProgram [] = 1

/-- For every valid VALUE of at least 1, encode of its decoding is VALUE; VALUE = 0 decodes to the empty program. (Rests
on 30_encoding.md section 5 (rule R56).) -/
def Obligations.ValueIsTheImageOfItsDecoding : Prop :=
  (∀ (v : Nat) (p : List Instr), 1 ≤ v → decodeAll v = .ok p → encodeProgram p = v) ∧ decodeAll 0 = .ok []

/-- A valid non-empty program has bit 0 equal to 0, so decoding an odd VALUE > 1 fails with TruncatedProgram. (Rests on
30_encoding.md section 4 (rule R54).) -/
def Obligations.OddValuesAreTruncated : Prop :=
  ∀ v : Nat, v % 2 = 1 → 1 < v → decodeAll v = .error .truncatedProgram

/-- DecodeAll gives the empty sequence exactly for VALUE = 0 and VALUE = 1, without a fault. (Rests on 40_decoder.md
section 2 (rule R68).) -/
def Obligations.OnlyZeroAndOneAreEmpty : Prop :=
  ∀ v : Nat, decodeAll v = .ok [] ↔ v = 0 ∨ v = 1

/-- If VALUE < 2^W decodes to a program, it has at most (W-1)/3 instructions, each of at most W-1 bits, and every operand
is at most W-4; and a program's integer fits W bits exactly when one bit and its instructions' bits do. (Rests on
30_encoding.md section 3 (rule R52).) -/
def Obligations.PortWidthBoundsPrograms : Prop :=
  (∀ (w v : Nat) (p : List Instr), v < 2 ^ w → decodeAll v = .ok p →
    p.length ≤ (w - 1) / 3 ∧ ∀ i ∈ p, i.wf w = true ∧ ∀ a ∈ i.operands, a + 4 ≤ w) ∧
  (∀ (w : Nat) (p : List Instr), blen (encodeProgram p) ≤ w ↔ programWf w p = true)

/-- 78, 46, 50, 446, 250, 246 and 28 decode to one instruction each, 1344 to INPUT(0), INC(0), PRINT(0); that 250 is
JUMP(2, 1) and 246 is JUMP(1, 2), not the reverse, rests on the operand order, the spec's decision D6 and the model's
deduction (log 6); the words 0, 1, 3, 4, 5 of the opcode table decode to the row's instruction with operands 0 (how
the table numbers a word is the model's reading, log 13). (Rests on 95_test_vectors.md table T3; 95_test_vectors.md
table T2; 40_decoder.md section 2 (rule R66).) -/
def Obligations.WrittenWordsDecode : Prop :=
  decodeAll 78 = .ok [.print 3] ∧ decodeAll 46 = .ok [.input 2] ∧ decodeAll 50 = .ok [.inc 1] ∧
  decodeAll 446 = .ok [.dec 4] ∧ decodeAll 250 = .ok [.jump 2 1] ∧ decodeAll 246 = .ok [.jump 1 2] ∧
  decodeAll 28 = .ok [.jump 0 0] ∧ decodeAll 1344 = .ok [.input 0, .inc 0, .print 0] ∧
  decodeTableWord 8 0 = some (.print 0) ∧ decodeTableWord 8 1 = some (.input 0) ∧
  decodeTableWord 8 3 = some (.jump 0 0) ∧ decodeTableWord 8 4 = some (.inc 0) ∧ decodeTableWord 8 5 = some (.dec 0)

/-- 2, 4, 5, 6, 7, 9, 12, 13, 14, 15, 16, 29, 65 and 1345 (table T5) fail with TruncatedProgram. (Rests on
95_test_vectors.md table T5; 40_decoder.md section 2 (rule R67).) -/
def Obligations.CutWordsAreTruncated : Prop :=
  ∀ v ∈ [2, 4, 5, 6, 7, 9, 12, 13, 14, 15, 16, 29, 65, 1345], decodeAll v = .error .truncatedProgram

/-- SentinelSearch changes CUR only. For VALUE = 0 it is -1. Otherwise it is blen(VALUE) - 2 (so -1 for VALUE = 1), the
bit above it is 1 and every higher bit is 0. (States R61.) -/
def Obligations.SentinelSearchFindsHighestBit : Prop :=
  ∀ s : State,
    (s.value = 0 → sentinelSearch s = { s with cur := -1 }) ∧
    (s.value ≠ 0 → sentinelSearch s = { s with cur := (blen s.value : Int) - 2 } ∧ 1 ≤ blen s.value ∧
      s.value.testBit (blen s.value - 1) = true ∧ ∀ j, blen s.value ≤ j → s.value.testBit j = false)

/-- With CUR < 0 NextBit fails with TruncatedProgram; otherwise it returns bit CUR of VALUE and only lowers CUR by one.
(States R62.) -/
def Obligations.NextBitReadsDownward : Prop :=
  ∀ s : State,
    (s.cur < 0 → nextBit s = .error .truncatedProgram) ∧
    (0 ≤ s.cur → nextBit s = .ok (s.value.testBit s.cur.toNat, { s with cur := s.cur - 1 }))

/-- From any state in DECODE whose sentinel search is still to do, one step for the search, one for each program bit and
one for the end bring the core to RUN with the decoded program, or to FAULT with CAUSE = TruncatedProgram and PROG
empty; nothing else changes but the exhausted cursor and the working state at rest. The steps are the model's
granularity and the fault's form its choice (logs 7, 10, 23). (Rests on 40_decoder.md section 2 (rule R66);
40_decoder.md section 2 (rule R67); 40_decoder.md section 2 (rule R69); 30_encoding.md section 2 (rule R50).) -/
def Obligations.DecoderComputesDecodeAll : Prop :=
  ∀ s : State, s.phase = .decode → s.work = .search →
    runSteps (blen s.value - 1 + 2) s = .next
      (match decodeAll s.value with
        | .ok p => { s with cur := -1, work := .node .root, prog := p, phase := .run }
        | .error _ =>
          { s with cur := -1, work := .node .root, prog := [], phase := .fault, cause := .truncatedProgram })

/-- In DECODE, inside an instruction and with the cursor exhausted, the step empties PROG, sets CAUSE to TruncatedProgram
and PHASE to FAULT; no pc or state is saved and nothing else changes, but for the working state, which goes back to
rest (log 23). A state the Host reads is the spec's form of the report (decision D7), and a next state the model's
(log 7). (Rests on 40_decoder.md section 2 (rule R67); 60_exceptions.md section 1 (rule R100); 60_exceptions.md
section 2 (rule R108).) -/
def Obligations.TruncationIsTaken : Prop :=
  ∀ (s : State) (n : TreeNode), s.phase = .decode → s.work = .node n → n ≠ .root → s.cur < 0 →
    step s = .next { s with prog := [], cause := .truncatedProgram, phase := .fault, work := .node .root }

/-- In DECODE, at the root of the dispatch tree with no bit left, the step only sets PHASE to RUN. (Rests on 40_decoder.md
section 2 (rule R66); 70_reset_and_hazards.md section 4 (rule R131).) -/
def Obligations.DecodingEndsAtABoundary : Prop :=
  ∀ s : State, s.phase = .decode → s.work = .node .root → s.cur < 0 → step s = .next { s with phase := .run }

/-- In DECODE a step leaves VALUE, pc, every variable, VLEN, the input stream, OUT and the parameters as they were. (Rests
on 40_decoder.md section 1 (rule R60).) -/
def Obligations.DecoderTouchesOnlyItsOwnState : Prop :=
  ∀ s t : State, s.phase = .decode → step s = .next t →
    t.value = s.value ∧ t.pc = s.pc ∧ t.vars = s.vars ∧ t.vlen = s.vlen ∧ t.inBytes = s.inBytes ∧
    t.inPos = s.inPos ∧ t.inClosed = s.inClosed ∧ t.out = s.out ∧ t.params = s.params

/-- Two states that differ only in W take the same steps, any number of them, to states that differ only in W. (Rests on
40_decoder.md section 2 (rule R63).) -/
def Obligations.PortWidthChangesNoStep : Prop :=
  ∀ (k w : Nat) (s t : State), runSteps k s = .next t →
    runSteps k { s with params := { s.params with width := w } } =
      .next { t with params := { t.params with width := w } }

/-- After MemWrite(i, 1, b) variable i reads b, every other variable reads as before, VLEN is the greater of itself and i
+ 1, and no other element of the state changes. (States R80.) -/
def Obligations.VariableWrite : Prop :=
  ∀ (i : Nat) (b : Byte) (s : State),
    (memWrite i b s).var i = b ∧ (∀ j, j ≠ i → (memWrite i b s).var j = s.var j) ∧
    memWrite i b s = { s with vars := (memWrite i b s).vars, vlen := max s.vlen (i + 1) }

/-- MemRead(i, 1) returns V[i], raises VLEN to cover i and changes nothing else; in a store in which nothing was written
every variable reads 0. (Rests on 41_machine_cycle.md section 3 (rule R79); 41_machine_cycle.md section 3 (rule R81).) -/
def Obligations.VariableRead : Prop :=
  (∀ (i : Nat) (s : State), memRead i s = (s.var i, { s with vlen := max s.vlen (i + 1) })) ∧
  (∀ (i : Nat) (s : State), s.vars = [] → (memRead i s).1 = 0#8)

/-- If two stores are in canonical form (log 16) and every index reads the same in both, they are equal lists: the list
holds no more than the total map V. (Rests on 10_state.md section 3 (rule R17).) -/
def Obligations.CanonicalStoresAreEqualData : Prop :=
  ∀ m m' : Memory, m.wf → m'.wf → (∀ i, m.read i = m'.read i) → m = m'

/-- If PHASE is RUN and PROG holds i at pc, the step is exec of i at that state; and in a state that meets the invariant
PROG is the decoding of VALUE, so i is the instruction VALUE's bits give at position pc. Nothing is added around exec:
each instruction writes pc itself. (Rests on 41_machine_cycle.md section 2 (rule R75); 20_memory.md section 5 (rule
R43).) -/
def Obligations.StepRunsTheFetchedInstruction : Prop :=
  ∀ (s : State) (i : Instr), s.phase = .run → 0 ≤ s.pc →
    (s.prog[s.pc.toNat]? = some i → step s = exec i s) ∧
    (∀ p, s.Inv → decodeAll s.value = .ok p → p[s.pc.toNat]? = some i → step s = exec i s)

/-- If a table word decodes to i, then with that word placed (the model's form of a load, logs 12 and 13) PROG is i alone
at the entry point and the very next step is exec of i. (Rests on 30_encoding.md section 5 (rule R56);
70_reset_and_hazards.md section 1 (rule R122).) -/
def Obligations.FetchWordRunsItsInstruction : Prop :=
  ∀ (s : State) (nbits w : Nat) (i : Instr), decodeTableWord nbits w = some i →
    (s.withFetchWord nbits w).prog = [i] ∧ (s.withFetchWord nbits w).pc = 0 ∧
    step (s.withFetchWord nbits w) = exec i (s.withFetchWord nbits w)

/-- In RUN with pc < 0 or pc >= N the step only sets PHASE to HALTED: pc, the variables, VLEN, OUT and INPOS keep their
values. (Rests on 41_machine_cycle.md section 2 (rule R76); 40_decoder.md section 2 (rule R68).) -/
def Obligations.PcOutOfRangeHalts : Prop :=
  ∀ s : State, s.phase = .run → (s.pc < 0 ∨ (instrCount s : Int) ≤ s.pc) → step s = .next { s with phase := .halted }

/-- No agent of the core has a step in these phases; the model's step answers the same state (the model's choice, log 8).
(Rests on 10_state.md section 5 (rule R23); 60_exceptions.md section 2 (rule R108); 70_reset_and_hazards.md section 3
(rule R126).) -/
def Obligations.OutsideDecodeAndRunTheCoreStays : Prop :=
  ∀ s : State, s.phase = .idle ∨ s.phase = .halted ∨ s.phase = .fault → step s = .next s

/-- From every state whatever the step answers a next state. The spec's part is that the Machine raises no fault of any
kind. The rest is the model's choice: a held INPUT, which has no step (R87), answers a next state (log 9); so do IDLE,
HALTED and FAULT, where no agent has a step (log 8); and the Decoder's fault is taken as a next state (log 7). (Rests
on 41_machine_cycle.md section 2 (rule R77); 60_exceptions.md section 1 (rule R105).) -/
def Obligations.EveryStepAnswersANextState : Prop :=
  ∀ s : State, ∃ t, step s = .next t

/-- In every state PRINT(v) answers the next state in which OUT has V[v] appended (whatever the byte: decision D16), pc is
one more, VLEN covers v, and nothing else changes. (Rests on 42_io.md PRINT (rule R85); 20_memory.md section 1 (rule
R34).) -/
def Obligations.PrintAppendsItsVariable : Prop :=
  ∀ (v : Nat) (s : State),
    exec (.print v) s = .next { s with out := s.out ++ [s.var v], pc := s.pc + 1, vlen := max s.vlen (v + 1) }

/-- INC(v) is encoded 1 0 0 unary(v). In every state it answers a next state in which V[v] is one more modulo 256, every
other variable is as before, pc is one more, VLEN covers v, and nothing else changes: no flag, no fault. (States R90.) -/
def Obligations.IncAddsOneModulo256 : Prop :=
  ∀ (v : Nat) (s : State), encode (.inc v) = [true, false, false] ++ unary v ∧
    ∃ t, exec (.inc v) s = .next t ∧ (t.var v).toNat = ((s.var v).toNat + 1) % 256 ∧
      (∀ j, j ≠ v → t.var j = s.var j) ∧
      t = { s with vars := t.vars, vlen := max s.vlen (v + 1), pc := s.pc + 1 }

/-- DEC(v) is encoded 1 0 1 unary(v). In every state it answers a next state in which V[v] is (x + 255) mod 256, every
other variable is as before, pc is one more, VLEN covers v, and nothing else changes: no flag, no fault. (States R91.) -/
def Obligations.DecSubtractsOneModulo256 : Prop :=
  ∀ (v : Nat) (s : State), encode (.dec v) = [true, false, true] ++ unary v ∧
    ∃ t, exec (.dec v) s = .next t ∧ (t.var v).toNat = ((s.var v).toNat + 255) % 256 ∧
      (∀ j, j ≠ v → t.var j = s.var j) ∧
      t = { s with vars := t.vars, vlen := max s.vlen (v + 1), pc := s.pc + 1 }

/-- Executed n times over from any state, INC(v) makes V[v] the old value plus n modulo 256 and DEC(v) plus 255 n modulo
256 (that is, minus n); every other variable stays. So 256 of either give the original value. (Rests on 43_arith.md
(rule R92).) -/
def Obligations.RepeatedIncAndDecCountModulo256 : Prop :=
  ∀ (n v : Nat) (s : State),
    (∃ t, execTimes n (.inc v) s = .next t ∧ (t.var v).toNat = ((s.var v).toNat + n) % 256 ∧
      ∀ j, j ≠ v → t.var j = s.var j) ∧
    (∃ t, execTimes n (.dec v) s = .next t ∧ (t.var v).toNat = ((s.var v).toNat + 255 * n) % 256 ∧
      ∀ j, j ≠ v → t.var j = s.var j)

/-- From any state, executing INC(v) and then DEC(v), or the other way round, gives a state in which every variable reads
as at the start. (Rests on 43_arith.md (rule R92).) -/
def Obligations.IncAndDecAreInverse : Prop :=
  ∀ (v : Nat) (s : State),
    (∃ t u, exec (.inc v) s = .next t ∧ exec (.dec v) t = .next u ∧ ∀ j, u.var j = s.var j) ∧
    (∃ t u, exec (.dec v) s = .next t ∧ exec (.inc v) t = .next u ∧ ∀ j, u.var j = s.var j)

/-- In every state JUMP(c, o) answers a next state. If V[c] = 0, pc is pc plus the offset read from V[o], with no further
1, and VLEN covers c and o. If V[c] is not 0, pc is one more and VLEN covers c only (decision D21). Nothing else
changes; no target faults. (Rests on 44_jump.md (rule R95); 10_state.md section 3 (rule R16); 90_conflicts.md C6.) -/
def Obligations.JumpTakenExactlyOnZero : Prop :=
  ∀ (c o : Nat) (s : State),
    (s.var c = 0#8 → exec (.jump c o) s = .next
      { s with pc := s.pc + offset s.params.offsetSigned (s.var o), vlen := max (max s.vlen (c + 1)) (o + 1) }) ∧
    (s.var c ≠ 0#8 → exec (.jump c o) s = .next { s with pc := s.pc + 1, vlen := max s.vlen (c + 1) })

/-- For a byte below 128 the signed and the unsigned reading are the byte. From 128 on the signed reading is the byte
minus 256 and the unsigned reading the byte. The signed reading is the two's-complement value. (Rests on 44_jump.md
(rule R96); 00_scope.md section 5 (rule R7); 90_conflicts.md C1.) -/
def Obligations.OffsetReadings : Prop :=
  ∀ b : Byte,
    (b.toNat < 128 → offset true b = b.toNat ∧ offset false b = b.toNat) ∧
    (128 ≤ b.toNat → offset true b = (b.toNat : Int) - 256 ∧ offset false b = b.toNat) ∧
    offset true b = b.toInt

/-- If in RUN the instruction at pc is JUMP(c, o) with V[c] = 0 and V[o] = 0, then after any number of steps the state is
the same but for VLEN, and still in RUN. (Rests on 44_jump.md (rule R97); 41_machine_cycle.md section 2 (rule R78).) -/
def Obligations.JumpOffsetZeroRunsForever : Prop :=
  ∀ (s : State) (c o : Nat), s.phase = .run → fetch s = some (.jump c o) → s.var c = 0#8 → s.var o = 0#8 →
    ∀ k, ∃ t, runSteps k s = .next t ∧ t.phase = .run ∧ t = { s with vlen := t.vlen }

/-- If V[v] = 0 the offset is 0 too and pc stays; otherwise pc is one more. JUMP(v, v) can transfer nowhere else, under
either reading of the offset. (Rests on 44_jump.md (rule R97).) -/
def Obligations.JumpOnOneVariableGoesNowhereElse : Prop :=
  ∀ (v : Nat) (s : State), exec (.jump v v) s = .next
    { s with pc := if s.var v = 0#8 then s.pc else s.pc + 1, vlen := max s.vlen (v + 1) }

/-- In a state that meets the invariant, in RUN, with OFFSET_SIGNED false and W at most 387: a taken JUMP whose offset
byte is 128 or more puts pc at N or beyond, and the next step halts. (Rests on 44_jump.md (rule R96); 30_encoding.md
section 3 (rule R52).) -/
def Obligations.UnsignedLongJumpEndsTheRun : Prop :=
  ∀ (s : State) (c o : Nat), s.Inv → s.phase = .run → s.params.offsetSigned = false → s.params.width ≤ 387 →
    fetch s = some (.jump c o) → s.var c = 0#8 → 128 ≤ (s.var o).toNat →
    ∃ t u, step s = .next t ∧ (instrCount t : Int) ≤ t.pc ∧ step t = .next u ∧ u = { t with phase := .halted }

/-- If the bytes left are some whitespace, then a byte c outside WS, then anything, INPUT(v) answers a next state in which
V[v] = c, every other variable is as before, INPOS is past c and no further, pc is one more, VLEN covers v, and
nothing else changes. This holds for every set WS. (Rests on 42_io.md INPUT (rule R86); 20_memory.md section 1 (rule
R33).) -/
def Obligations.InputStoresTheNextCharacter : Prop :=
  ∀ (v : Nat) (s : State) (skipped : List Byte) (c : Byte) (after : List Byte),
    s.inLeft = skipped ++ c :: after → (∀ b ∈ skipped, isWs s.params b = true) → isWs s.params c = false →
    ∃ t, exec (.input v) s = .next t ∧ t.var v = c ∧ (∀ j, j ≠ v → t.var j = s.var j) ∧
      t = { s with vars := t.vars, vlen := max s.vlen (v + 1), inPos := s.inPos + skipped.length + 1, pc := s.pc + 1 }

/-- If only whitespace is left and the stream is closed, INPUT(v) answers a next state with the stream consumed, pc one
more and VLEN covering v. Under EOF_POLICY = unchanged every variable keeps its value; under zero V[v] is 0 and every
other variable keeps its value. Nothing else changes: no fault. That the skipped whitespace stays consumed, so INPOS
ends at the end of IN, is the spec's decision D23 where the source is silent, and the model's deduction (log 19).
(Rests on 42_io.md INPUT (rule R88); 60_exceptions.md section 1 (rule R102).) -/
def Obligations.InputAtEndOfInput : Prop :=
  ∀ (v : Nat) (s : State), s.inPos ≤ s.inBytes.length → (∀ b ∈ s.inLeft, isWs s.params b = true) →
    s.inClosed = true →
    ∃ t, exec (.input v) s = .next t ∧
      (s.params.eofPolicy = .unchanged → ∀ j, t.var j = s.var j) ∧
      (s.params.eofPolicy = .zero → t.var v = 0#8 ∧ ∀ j, j ≠ v → t.var j = s.var j) ∧
      t = { s with vars := t.vars, vlen := max s.vlen (v + 1), inPos := s.inBytes.length, pc := s.pc + 1 }

/-- If only whitespace is left and the stream is open, executing INPUT(v) consumes that whitespace and changes nothing
else: pc still stands at the INPUT (the waiting step is the model's form of a hold, log 9). (Rests on 42_io.md INPUT
(rule R87).) -/
def Obligations.InputHoldsOnAnOpenStream : Prop :=
  ∀ (v : Nat) (s : State), s.inPos ≤ s.inBytes.length → (∀ b ∈ s.inLeft, isWs s.params b = true) →
    s.inClosed = false → exec (.input v) s = .next { s with inPos := s.inBytes.length }

/-- If INPUT(v) holds at s, giving s1, and the Host appends a byte or closes the stream, then executing INPUT(v) after
that move from s1 gives the same outcome as executing it after the same move from s. (Rests on 42_io.md INPUT (rule
R86); 42_io.md INPUT (rule R87).) -/
def Obligations.HeldInputResumesAsIfNotHeld : Prop :=
  ∀ (v : Nat) (s s1 s2 s3 : State) (m : HostMove), s.inPos ≤ s.inBytes.length →
    (∀ b ∈ s.inLeft, isWs s.params b = true) → s.inClosed = false → exec (.input v) s = .next s1 →
    (m = .close ∨ ∃ b, m = .append b) → hostMove m s1 = .next s2 → hostMove m s = .next s3 →
    exec (.input v) s2 = exec (.input v) s3

/-- Under parameters that meet R89's condition the bytes 0x20, 0x09 and 0x0A are whitespace; at reset (the spec's
recommended WS, decision D5, log 5) a byte is whitespace exactly when it is one of 0x09 to 0x0D or 0x20. (Rests on
42_io.md INPUT (rule R89); 00_scope.md section 4 (rule R6).) -/
def Obligations.WhitespaceSetContents : Prop :=
  (∀ p : Params, p.wf = true → isWs p 0x20#8 = true ∧ isWs p 0x09#8 = true ∧ isWs p 0x0A#8 = true) ∧
  State.reset.params.wf = true ∧
  (∀ c : Byte, isWs State.reset.params c = true ↔ (9 ≤ c.toNat ∧ c.toNat ≤ 13) ∨ c.toNat = 32)

/-- If PRINT(v) or JUMP(c, o) answers a next state, every variable reads as before, VALUE, CUR, the working state, PROG,
the input stream, PHASE, CAUSE and the parameters are unchanged, and VLEN does not fall; JUMP leaves OUT alone and
PRINT leaves what OUT held in front. (Rests on 42_io.md PRINT (rule R85); 44_jump.md (rule R95); 10_state.md section 3
(rule R18).) -/
def Obligations.FrameOfPrintAndJump : Prop :=
  ∀ (s t : State) (v c o : Nat),
    (exec (.print v) s = .next t → s.SameControl t ∧ t.inPos = s.inPos ∧ (∀ a, t.var a = s.var a) ∧ s.vlen ≤ t.vlen ∧
      ∃ b, t.out = s.out ++ [b]) ∧
    (exec (.jump c o) s = .next t → s.SameControl t ∧ t.inPos = s.inPos ∧ (∀ a, t.var a = s.var a) ∧ s.vlen ≤ t.vlen ∧
      t.out = s.out)

/-- If INC(v) or DEC(v) answers a next state, every variable other than v, the operand itself, reads as before; VALUE,
CUR, the working state, PROG, both streams, PHASE, CAUSE and the parameters are unchanged, and VLEN does not fall.
(Rests on 43_arith.md (rule R90); 43_arith.md (rule R91); 41_machine_cycle.md section 3 (rule R80).) -/
def Obligations.FrameOfIncAndDec : Prop :=
  ∀ (s t : State) (v : Nat), (exec (.inc v) s = .next t ∨ exec (.dec v) s = .next t) →
    s.SameControl t ∧ t.inPos = s.inPos ∧ t.out = s.out ∧ s.vlen ≤ t.vlen ∧ ∀ a, a ≠ v → t.var a = s.var a

/-- If INPUT(v) answers a next state (a byte, the end of input or a hold), every variable other than v reads as before;
VALUE, CUR, the working state, PROG, the bytes of IN, INCLOSED, OUT, PHASE, CAUSE and the parameters are unchanged;
INPOS and VLEN do not fall. (Rests on 42_io.md INPUT (rule R86); 42_io.md INPUT (rule R88); 10_state.md section 4
(rule R21).) -/
def Obligations.FrameOfInput : Prop :=
  ∀ (s t : State) (v : Nat), exec (.input v) s = .next t →
    s.SameControl t ∧ t.out = s.out ∧ s.inPos ≤ t.inPos ∧ s.vlen ≤ t.vlen ∧ ∀ a, a ≠ v → t.var a = s.var a

/-- If a step changes variable j, then PHASE is RUN and the instruction fetched is INPUT(j), INC(j) or DEC(j). (Rests on
10_state.md section 3 (rule R18); 20_memory.md section 1 (rule R30).) -/
def Obligations.OnlyThreeInstructionsWriteAVariable : Prop :=
  ∀ (s t : State) (j : Nat), step s = .next t → t.var j ≠ s.var j →
    s.phase = .run ∧ (fetch s = some (.input j) ∨ fetch s = some (.inc j) ∨ fetch s = some (.dec j))

/-- A step of the core leaves IN and INCLOSED alone. OUT is unchanged, or the step is a PRINT(v) in RUN and OUT gains
V[v]. INPOS does not fall, and if it moves the step is an INPUT in RUN. (Rests on 10_state.md section 4 (rule R21);
10_state.md section 4 (rule R22); 20_memory.md section 1 (rule R34); 70_reset_and_hazards.md section 4 (rule R130).) -/
def Obligations.StreamsMoveOneWay : Prop :=
  ∀ s t : State, step s = .next t →
    t.inBytes = s.inBytes ∧ t.inClosed = s.inClosed ∧
    (t.out = s.out ∨ ∃ v, s.phase = .run ∧ fetch s = some (.print v) ∧ t.out = s.out ++ [s.var v]) ∧
    s.inPos ≤ t.inPos ∧ (t.inPos ≠ s.inPos → s.phase = .run ∧ ∃ v, fetch s = some (.input v))

/-- A step keeps PHASE, or takes DECODE to RUN at an instruction boundary with no bit left, or DECODE to FAULT with no bit
left inside an instruction, or RUN to HALTED with pc out of range. VALUE and the parameters never change, and outside
DECODE neither do PROG, CUR and the working state. (Rests on 10_state.md section 5 (rule R23); 40_decoder.md section 2
(rule R66); 41_machine_cycle.md section 2 (rule R76).) -/
def Obligations.PhaseMovesAreThoseOfTheTable : Prop :=
  ∀ s t : State, step s = .next t →
    (t.phase = s.phase ∨
      (s.phase = .decode ∧ t.phase = .run ∧ s.work = .node .root ∧ s.cur < 0 ∧ t.prog = s.prog) ∨
      (s.phase = .decode ∧ t.phase = .fault ∧ s.work ≠ .node .root ∧ s.cur < 0 ∧ t.prog = []) ∨
      (s.phase = .run ∧ t.phase = .halted ∧ (s.pc < 0 ∨ (instrCount s : Int) ≤ s.pc))) ∧
    t.value = s.value ∧ t.params = s.params ∧
    (s.phase ≠ .decode → t.prog = s.prog ∧ t.cur = s.cur ∧ t.work = s.work)

/-- After any number of steps from two states that differ only in VLEN, the Host's view, PROG and every variable are the
same (the view is the model's choice in two points: it shows N outside DECODE only, log 24, though PROG is compared
here in every phase; and it leaves VLEN out after the halt as before, log 25, where D22 lets the Host read VLEN and
R20, R39 and D12 call it hidden). (Rests on 10_state.md section 3 (rule R20); 20_memory.md section 3 (rule R39).) -/
def Obligations.VlenIsUnobservable : Prop :=
  ∀ (k n : Nat) (s : State), ∃ t t', runSteps k s = .next t ∧ runSteps k { s with vlen := n } = .next t' ∧
    t'.hostView = t.hostView ∧ t'.prog = t.prog ∧ ∀ j, t'.var j = t.var j

/-- In RUN two states that differ only in VALUE, CUR and the working state take the same step, to states that differ only
in those. (Rests on 41_machine_cycle.md section 1 (rule R74); 20_memory.md section 5 (rule R43).) -/
def Obligations.MachineIgnoresDecoderState : Prop :=
  ∀ (s t : State) (v : Nat) (c : Int) (w : DecoderWork), s.phase = .run → step s = .next t →
    step { s with value := v, cur := c, work := w } = .next { t with value := v, cur := c, work := w }

/-- State.resetWith p meets Inv for every p, and State.reset is the case of the spec's recommended parameters. (Rests on
10_state.md section 7 (rule R27); 70_reset_and_hazards.md section 1 (rule R120).) -/
def Obligations.ResetMeetsTheInvariant : Prop :=
  (∀ p : Params, (State.resetWith p).Inv) ∧ State.reset.Inv

/-- From every state that meets Inv, whether or not a run reaches it, a step gives a state that meets it: the store stays
canonical and 0 beyond VLEN, pc stays within -128 .. N+254, the cursor never points at or above the sentinel, CAUSE
agrees with PHASE, PROG in RUN is exactly what VALUE decodes to, and nothing has executed before RUN. (Rests on
10_state.md section 3 (rule R15); 10_state.md section 3 (rule R20); 10_state.md section 1 (rule R11); 10_state.md
section 5 (rule R24); 40_decoder.md section 2 (rule R66); 70_reset_and_hazards.md section 4 (rule R129).) -/
def Obligations.StepKeepsTheInvariant : Prop :=
  ∀ s t : State, s.Inv → step s = .next t → t.Inv

/-- From every state that meets Inv, a launch, an append, a close or a reset that is not refused gives a state that meets
it. (Rests on 70_reset_and_hazards.md section 2 (rule R125); 70_reset_and_hazards.md section 1 (rule R123);
10_state.md section 4 (rule R21).) -/
def Obligations.HostMovesKeepTheInvariant : Prop :=
  ∀ (m : HostMove) (s t : State), s.Inv → hostMove m s = .next t → t.Inv

/-- In every state reached from reset by any moves of the core and the Host, if VALUE is a truncated program then PHASE is
neither RUN nor HALTED, pc is 0, every variable is 0, OUT is empty and no input is consumed; in FAULT PROG is empty.
(Rests on 40_decoder.md section 2 (rule R67); 70_reset_and_hazards.md section 4 (rule R129); 70_reset_and_hazards.md
section 3 (rule R126).) -/
def Obligations.TruncatedProgramsNeverRun : Prop :=
  ∀ (ms : List Move) (p : Params) (s : State), actAll ms (State.resetWith p) = .next s →
    decodeAll s.value = .error .truncatedProgram →
    s.phase ≠ .run ∧ s.phase ≠ .halted ∧ s.pc = 0 ∧ (∀ j, s.var j = 0#8) ∧ s.out = [] ∧ s.inPos = 0 ∧
      (s.phase = .fault → s.prog = [] ∧ s.cause = .truncatedProgram)

/-- For every program that fits the port: the launch of its integer from reset is accepted, and after one step for the
sentinel search, one for each of its bits and one for the end, the state is the reset state with VALUE, PROG the
program, the cursor exhausted and PHASE RUN, pc at position 0. It is the state withFetchWord builds for one
instruction (log 12). (Rests on 70_reset_and_hazards.md section 1 (rule R123); 70_reset_and_hazards.md section 1 (rule
R122); 40_decoder.md section 2 (rule R66); 30_encoding.md section 5 (rule R56).) -/
def Obligations.LaunchedProgramIsLoaded : Prop :=
  ∀ (q : Params) (p : List Instr), programWf q.width p = true →
    ∃ s, hostMove (.launch (encodeProgram p)) (State.resetWith q) = .next s ∧
      runSteps (programBitLength p + 2) s = .next (loadProgram p (State.resetWith q))

/-- At reset pc is 0, every variable reads 0 and VLEN is 0 (the source's values), and VALUE is 0, CUR -1, the Decoder at
the root, PROG, IN and OUT empty, INPOS 0, the input open, PHASE IDLE, CAUSE none (the spec's values, decision D18;
VALUE's: log 15). R27 and R120 list no parameters: that they stand in a field of State is the model's choice (log 1),
and that reset gives it the four values the spec recommends (R6), W = 64, OFFSET_SIGNED = true, EOF_POLICY = unchanged
and WS = 0x09 to 0x0D and 0x20, is the model's too (logs 2, 3, 4, 5). (Rests on 10_state.md section 7 (rule R27);
70_reset_and_hazards.md section 1 (rule R120).) -/
def Obligations.ResetState : Prop :=
  State.reset.pc = 0 ∧ (∀ i, State.reset.var i = 0#8) ∧ State.reset.vlen = 0 ∧
  State.reset.value = 0 ∧ State.reset.cur = -1 ∧ State.reset.work = .node .root ∧ State.reset.prog = [] ∧
  State.reset.inBytes = [] ∧ State.reset.inPos = 0 ∧ State.reset.inClosed = false ∧ State.reset.out = [] ∧
  State.reset.phase = .idle ∧ State.reset.cause = .none ∧ State.reset.params.width = 64 ∧
  State.reset.params.offsetSigned = true ∧ State.reset.params.eofPolicy = .unchanged ∧
  State.reset.params.ws = [0x09#8, 0x0A#8, 0x0B#8, 0x0C#8, 0x0D#8, 0x20#8]

/-- In IDLE with v < 2^W the launch sets VALUE to v and PHASE to DECODE, with the Decoder about to begin (the mark
'search' is the model's, log 10), and changes nothing else. With v >= 2^W it is refused (D2), and in any other phase
it is refused (D26): a refusal is the model's form of both (log 14). (Rests on 70_reset_and_hazards.md section 1 (rule
R123); 70_reset_and_hazards.md section 1 (rule R121); 70_reset_and_hazards.md section 2 (rule R125).) -/
def Obligations.LaunchIsAcceptedFromIdleOnly : Prop :=
  ∀ (v : Nat) (s : State),
    (s.phase = .idle → v < 2 ^ s.params.width →
      hostMove (.launch v) s = .next { s with value := v, phase := .decode, work := .search }) ∧
    (s.phase = .idle → 2 ^ s.params.width ≤ v → hostMove (.launch v) s = .refused .launchTooWide) ∧
    (s.phase ≠ .idle → hostMove (.launch v) s = .refused .launchNotIdle)

/-- Appending to an open stream adds the byte at the end of IN and changes nothing else; to a closed stream it is refused,
which is the model's choice for what the spec forbids the Host (log 14). Closing sets INCLOSED and nothing else. A
reset in any phase gives the reset state under the same parameters (log 1). (Rests on 10_state.md section 4 (rule
R21); 70_reset_and_hazards.md section 1 (rule R121); 70_reset_and_hazards.md section 2 (rule R125).) -/
def Obligations.HostFeedsClosesAndResets : Prop :=
  ∀ (b : Byte) (s : State),
    (s.inClosed = false → hostMove (.append b) s = .next { s with inBytes := s.inBytes ++ [b] }) ∧
    (s.inClosed = true → hostMove (.append b) s = .refused .inputClosed) ∧
    hostMove .close s = .next { s with inClosed := true } ∧
    hostMove .reset s = .next (State.resetWith s.params)

/-- A step from DECODE that stays in DECODE leaves the Host's view as it was. The view shows N outside DECODE only, the
model's choice where the spec makes N readable (D10) and says that no agent observes a partial decode (D19) (log 24).
(Rests on 10_state.md section 1 (rule R12); 92_eei_decisions.md D19.) -/
def Obligations.DecodingInProgressIsUnobservable : Prop :=
  ∀ s t : State, s.phase = .decode → step s = .next t → t.phase = .decode → t.hostView = s.hostView
end

