-- ==== Sys2Proof/Laws/Decode.lean ====
section
/-! SUPPORT. The laws of the decoder and the encoder as functions on bits. -/

namespace Sys2Proof

/-! ### Bits of a number -/

@[simp] theorem blen_zero : blen 0 = 0 := rfl

theorem blen_pos {v : Nat} (h : v ≠ 0) : blen v = v.log2 + 1 := by simp [blen, h]

/-- `blen` counts the bits below the first power of two above the number. -/
theorem blen_le_iff {v w : Nat} : blen v ≤ w ↔ v < 2 ^ w := by
  by_cases h : v = 0
  · subst h; simp
  · rw [blen_pos h, Nat.succ_le_iff, Nat.log2_lt h]

theorem blen_eq_of_bounds {v k : Nat} (hl : 2 ^ k ≤ v) (hu : v < 2 ^ (k + 1)) : blen v = k + 1 := by
  apply le_antisymm (blen_le_iff.mpr hu)
  have : ¬ blen v ≤ k := fun h => absurd (blen_le_iff.mp h) (by omega)
  omega

theorem pow_blen_le {v : Nat} (h : v ≠ 0) : 2 ^ (blen v - 1) ≤ v := by
  have : ¬ blen v ≤ blen v - 1 := by rw [blen_pos h]; omega
  by_contra hc
  exact this (blen_le_iff.mpr (by omega))

@[simp] theorem length_bitsBelow (v k : Nat) : (bitsBelow v k).length = k := by
  induction k with
  | zero => rfl
  | succ k ih => simp [bitsBelow, ih]

@[simp] theorem length_programBits (v : Nat) : (programBits v).length = blen v - 1 := by simp [programBits]

theorem appendBits_cons (acc : Nat) (b : Bool) (bits : List Bool) :
    appendBits acc (b :: bits) = appendBits (2 * acc + b.toNat) bits := rfl

/-- A number whose top is `acc` and whose `bits.length` low bits are `bits`. -/
theorem appendBits_eq (acc : Nat) (bits : List Bool) :
    appendBits acc bits = acc * 2 ^ bits.length + appendBits 0 bits := by
  induction bits generalizing acc with
  | nil => simp [appendBits]
  | cons b bits ih =>
    rw [appendBits_cons, appendBits_cons, ih, ih (2 * 0 + b.toNat), List.length_cons, pow_succ]; ring

theorem appendBits_zero_lt (bits : List Bool) : appendBits 0 bits < 2 ^ bits.length := by
  induction bits with
  | nil => simp [appendBits]
  | cons b bits ih =>
    rw [appendBits_cons, appendBits_eq, List.length_cons, pow_succ]
    cases b <;> simp <;> omega

/-- The low bits of an appended number are the bits appended. -/
theorem bitsBelow_appendBits (acc : Nat) (bits : List Bool) : bitsBelow (appendBits acc bits) bits.length = bits := by
  induction bits generalizing acc with
  | nil => rfl
  | cons b bits ih =>
    rw [appendBits_cons, List.length_cons, bitsBelow, ih]
    congr 1
    rw [appendBits_eq, Nat.testBit_eq_decide_div_mod_eq, Nat.mul_comm, Nat.mul_add_div (by positivity),
      Nat.div_eq_of_lt (appendBits_zero_lt bits)]
    cases b <;> simp

/-- A number is its top followed by its low bits. -/
theorem appendBits_bitsBelow (v k : Nat) : appendBits (v / 2 ^ k) (bitsBelow v k) = v := by
  induction k with
  | zero => simp [appendBits, bitsBelow]
  | succ k ih =>
    rw [bitsBelow, appendBits_cons]
    convert ih using 2
    rw [Nat.testBit_eq_decide_div_mod_eq, pow_succ, ← Nat.div_div_eq_div_mul]
    generalize v / 2 ^ k = x
    rcases Nat.mod_two_eq_zero_or_one x with h | h <;> simp [h] <;> omega

/-- The bits after the sentinel of `1 ++ bits` are `bits` (R45). -/
@[simp] theorem programBits_appendBits (bits : List Bool) : programBits (appendBits 1 bits) = bits := by
  have hlt := appendBits_zero_lt bits
  have he := appendBits_eq 1 bits
  have : blen (appendBits 1 bits) = bits.length + 1 := by
    apply blen_eq_of_bounds <;> rw [he]
    · omega
    · rw [pow_succ]; omega
  rw [programBits, this]
  exact bitsBelow_appendBits 1 bits

/-- A number other than 0 is `1` followed by its program bits (R45). -/
theorem appendBits_programBits {v : Nat} (h : v ≠ 0) : appendBits 1 (programBits v) = v := by
  have hl := pow_blen_le h
  have hu := blen_le_iff.mp (le_refl (blen v))
  have hb : blen v = (blen v - 1) + 1 := by rw [blen_pos h]; omega
  have : v / 2 ^ (blen v - 1) = 1 := by
    apply Nat.div_eq_of_lt_le
    · simpa using hl
    · rw [hb, pow_succ] at hu; omega
  have key := appendBits_bitsBelow v (blen v - 1)
  rwa [this] at key

/-! ### Reading an operand -/

@[simp] theorem length_unary (k : Nat) : (unary k).length = k + 1 := by simp [unary]

theorem unary_succ (k : Nat) : unary (k + 1) = true :: unary k := by simp [unary, List.replicate_succ]

/-- A unary code is read back, whatever follows it (R51, R64). -/
@[simp] theorem readIndex_unary (k : Nat) (rest : List Bool) : readIndex (unary k ++ rest) = .ok (k, rest) := by
  induction k with
  | zero => rfl
  | succ k ih => rw [unary_succ, List.cons_append, readIndex, ih]

/-- What is read as an index is a unary code (R51, R64). -/
theorem eq_unary_of_readIndex {bits rest : List Bool} {k : Nat} (h : readIndex bits = .ok (k, rest)) :
    bits = unary k ++ rest := by
  induction bits generalizing k with
  | nil => simp [readIndex] at h
  | cons b bits ih =>
    cases b with
    | false =>
      simp only [readIndex, Except.ok.injEq, Prod.mk.injEq] at h
      obtain ⟨rfl, rfl⟩ := h; rfl
    | true =>
      simp only [readIndex] at h
      split at h
      · rename_i k' r hk
        simp only [Except.ok.injEq, Prod.mk.injEq] at h
        obtain ⟨rfl, rfl⟩ := h
        rw [unary_succ, List.cons_append, ← ih hk]
      · cases h

/-- Reading an operand succeeds exactly on a unary code. -/
theorem readOne_ok_iff {build : Nat → Instr} {bits rest : List Bool} {i : Instr} :
    readOne build bits = .ok (i, rest) ↔ ∃ k, i = build k ∧ bits = unary k ++ rest := by
  constructor
  · intro h
    simp only [readOne] at h
    split at h
    · rename_i k r hk
      simp only [Except.ok.injEq, Prod.mk.injEq] at h
      obtain ⟨rfl, rfl⟩ := h
      exact ⟨k, rfl, eq_unary_of_readIndex hk⟩
    · cases h
  · rintro ⟨k, rfl, rfl⟩
    simp [readOne]

/-! ### One instruction -/

@[simp] theorem length_encode (i : Instr) : (encode i).length = i.bitLength := by
  cases i with
  | jump c o => simp [encode, Instr.bitLength]; omega
  | print v | input v | inc v | dec v => simp [encode, Instr.bitLength]

/-- The only error is the truncation. -/
theorem error_eq (e : DecodeError) : e = .truncatedProgram := by cases e; rfl

theorem three_le_bitLength (i : Instr) : 3 ≤ i.bitLength := by cases i <;> simp [Instr.bitLength]

/-! ### The whole stream -/

/-- Fuel beyond the length of the stream changes nothing, if decoding one instruction takes bits. -/
theorem decodeLoop_fuel (hdec : ∀ bits i rest, decodeOne bits = .ok (i, rest) → rest.length < bits.length) (bits : List Bool) :
    ∀ fuel, bits.length ≤ fuel → decodeLoop fuel bits = decodeBits bits := by
  induction hn : bits.length using Nat.strong_induction_on generalizing bits with
  | _ n ih =>
    intro fuel hf
    cases bits with
    | nil => cases fuel <;> rfl
    | cons b bits =>
      simp only [List.length_cons] at hn
      subst hn
      obtain ⟨fuel, rfl⟩ : ∃ f, fuel = f + 1 := ⟨fuel - 1, by omega⟩
      simp only [decodeBits, List.length_cons, decodeLoop]
      split
      · rename_i i rest h1
        have hlt := hdec _ _ _ h1
        simp only [List.length_cons] at hlt
        rw [ih rest.length (by omega) rest rfl fuel (by omega), ih rest.length (by omega) rest rfl bits.length (by omega)]
      · rfl

end Sys2Proof
end

