-- ==== Sys2Proof/Laws/PerInstr.lean ====
section
/-! SUPPORT. Statements made per instruction, one lemma per constructor of Instr. Family RoundTrip: the bits of an instruction
decode to it, whatever follows them (R48, R56, R65). -/

namespace Sys2Proof.Laws.RoundTrip

/-- The bits of `i`, followed by anything, decode to `i` and leave what follows. -/
def Statement (i : Instr) : Prop := ∀ rest, decodeOne (encode i ++ rest) = .ok (i, rest)

theorem print (v : Nat) : Statement (.print v) := by
  intro rest; simp [encode, decodeOne, readOpcode, readOperands, readOne]

theorem input (v : Nat) : Statement (.input v) := by
  intro rest; simp [encode, decodeOne, readOpcode, readOperands, readOne]

theorem jump (c o : Nat) : Statement (.jump c o) := by
  intro rest; simp [encode, decodeOne, readOpcode, readOperands, readOne, List.append_assoc]

theorem inc (v : Nat) : Statement (.inc v) := by
  intro rest; simp [encode, decodeOne, readOpcode, readOperands, readOne]

theorem dec (v : Nat) : Statement (.dec v) := by
  intro rest; simp [encode, decodeOne, readOpcode, readOperands, readOne]

end Sys2Proof.Laws.RoundTrip
end

