-- ==== Sys2Proof/Laws/Programs.lean ====
section
/-! SUPPORT. Decoding one instruction inverts encoding it, and what that gives for a whole stream. -/

namespace Sys2Proof

/-- Every instruction's bits decode to it (the family RoundTrip, over all constructors). -/
theorem roundTrip (i : Instr) : Laws.RoundTrip.Statement i := by
  cases i with
  | print v => exact Laws.RoundTrip.print v
  | input v => exact Laws.RoundTrip.input v
  | jump c o => exact Laws.RoundTrip.jump c o
  | inc v => exact Laws.RoundTrip.inc v
  | dec v => exact Laws.RoundTrip.dec v

/-- A stream that selects an opcode starts with its prefix code (R47). -/
theorem readOpcode_inv {bits rest : List Bool} {op : Opcode} (h : readOpcode bits = .ok (op, rest)) :
    (op = .print ∧ bits = false :: false :: rest) ∨ (op = .input ∧ bits = false :: true :: rest) ∨
    (op = .jump ∧ bits = true :: true :: rest) ∨ (op = .inc ∧ bits = true :: false :: false :: rest) ∨
    (op = .dec ∧ bits = true :: false :: true :: rest) := by
  unfold readOpcode at h
  split at h <;> simp_all

/-- What decodes to an instruction begins with its bits (R65). -/
theorem eq_encode_of_decodeOne {bits rest : List Bool} {i : Instr} (h : decodeOne bits = .ok (i, rest)) :
    bits = encode i ++ rest := by
  simp only [decodeOne] at h
  split at h
  · rename_i op r hop
    rcases readOpcode_inv hop with ⟨rfl, rfl⟩ | ⟨rfl, rfl⟩ | ⟨rfl, rfl⟩ | ⟨rfl, rfl⟩ | ⟨rfl, rfl⟩ <;>
      simp only [readOperands] at h
    · obtain ⟨k, rfl, rfl⟩ := readOne_ok_iff.mp h; rfl
    · obtain ⟨k, rfl, rfl⟩ := readOne_ok_iff.mp h; rfl
    · split at h
      · rename_i a r' ha
        obtain ⟨k, rfl, rfl⟩ := readOne_ok_iff.mp h
        rw [eq_unary_of_readIndex ha]; simp [encode]
      · cases h
    · obtain ⟨k, rfl, rfl⟩ := readOne_ok_iff.mp h; rfl
    · obtain ⟨k, rfl, rfl⟩ := readOne_ok_iff.mp h; rfl
  · cases h

/-- Decoding an instruction takes at least its three bits. -/
theorem length_rest_of_decodeOne {bits rest : List Bool} {i : Instr} (h : decodeOne bits = .ok (i, rest)) :
    rest.length < bits.length := by
  rw [eq_encode_of_decodeOne h, List.length_append, length_encode]
  have := three_le_bitLength i
  omega

@[simp] theorem decodeBits_nil : decodeBits [] = .ok [] := rfl

/-- The loop of `DecodeAll()`, unrolled once (R66). -/
theorem decodeBits_eq {bits : List Bool} (hne : bits ≠ []) :
    decodeBits bits =
      match decodeOne bits with
      | .ok (i, rest) => match decodeBits rest with | .ok p => .ok (i :: p) | .error e => .error e
      | .error e => .error e := by
  obtain ⟨b, bs, rfl⟩ := List.exists_cons_of_ne_nil hne
  rw [decodeBits, List.length_cons, decodeLoop]
  cases h : decodeOne (b :: bs) with
  | ok ir =>
    obtain ⟨i, rest⟩ := ir
    have hlt := length_rest_of_decodeOne h
    simp only [List.length_cons] at hlt
    simp only [decodeLoop_fuel (fun _ _ _ => length_rest_of_decodeOne) rest bs.length (by omega)]
    all_goals rfl
  | error e => rfl

theorem encode_ne_nil (i : Instr) : encode i ≠ [] := by
  intro h
  have := congrArg List.length h
  rw [length_encode] at this
  have := three_le_bitLength i
  simp_all

/-- An instruction's bits in front of a stream (R66). -/
theorem decodeBits_encode_append (i : Instr) (rest : List Bool) :
    decodeBits (encode i ++ rest) = match decodeBits rest with | .ok p => .ok (i :: p) | .error e => .error e := by
  rw [decodeBits_eq (by simp [encode_ne_nil]), roundTrip i rest]

theorem length_flatMap_encode (p : List Instr) : (p.flatMap encode).length = programBitLength p := by
  induction p with
  | nil => rfl
  | cons i p ih => simp [programBitLength] at ih ⊢

/-- A stream decodes to a program exactly when it is the program's bits (R56, R66). -/
theorem decodeBits_ok_iff {bits : List Bool} {p : List Instr} : decodeBits bits = .ok p ↔ bits = p.flatMap encode := by
  constructor
  · intro h
    induction hn : bits.length using Nat.strong_induction_on generalizing bits p with
    | _ n ih =>
      by_cases hne : bits = []
      · subst hne; simp only [decodeBits_nil, Except.ok.injEq] at h; subst h; rfl
      · rw [decodeBits_eq hne] at h
        split at h
        · rename_i i rest h1
          split at h
          · rename_i p' h2
            simp only [Except.ok.injEq] at h
            subst h
            have := ih rest.length (by have := length_rest_of_decodeOne h1; omega) h2 rfl
            rw [eq_encode_of_decodeOne h1, List.flatMap_cons, ← this]
          · cases h
        · cases h
  · rintro rfl
    induction p with
    | nil => rfl
    | cons i p ih => rw [List.flatMap_cons, decodeBits_encode_append, ih]

end Sys2Proof
end

