-- ==== Sys2Proof/Laws/State.lean ====
section
/-! SUPPORT. One lemma per field of State for each operation that updates it. -/

namespace Sys2Proof.Machine

/-! ### grow -/

@[simp] theorem grow_value (i : Nat) (s : State) : (grow i s).value = s.value := rfl
@[simp] theorem grow_cur (i : Nat) (s : State) : (grow i s).cur = s.cur := rfl
@[simp] theorem grow_work (i : Nat) (s : State) : (grow i s).work = s.work := rfl
@[simp] theorem grow_prog (i : Nat) (s : State) : (grow i s).prog = s.prog := rfl
@[simp] theorem grow_pc (i : Nat) (s : State) : (grow i s).pc = s.pc := rfl
@[simp] theorem grow_vars (i : Nat) (s : State) : (grow i s).vars = s.vars := rfl
@[simp] theorem grow_vlen (i : Nat) (s : State) : (grow i s).vlen = max s.vlen (i + 1) := rfl
@[simp] theorem grow_inBytes (i : Nat) (s : State) : (grow i s).inBytes = s.inBytes := rfl
@[simp] theorem grow_inPos (i : Nat) (s : State) : (grow i s).inPos = s.inPos := rfl
@[simp] theorem grow_inClosed (i : Nat) (s : State) : (grow i s).inClosed = s.inClosed := rfl
@[simp] theorem grow_out (i : Nat) (s : State) : (grow i s).out = s.out := rfl
@[simp] theorem grow_phase (i : Nat) (s : State) : (grow i s).phase = s.phase := rfl
@[simp] theorem grow_cause (i : Nat) (s : State) : (grow i s).cause = s.cause := rfl
@[simp] theorem grow_params (i : Nat) (s : State) : (grow i s).params = s.params := rfl

/-! ### memWrite -/

@[simp] theorem memWrite_value (i : Nat) (b : Byte) (s : State) : (memWrite i b s).value = s.value := rfl
@[simp] theorem memWrite_cur (i : Nat) (b : Byte) (s : State) : (memWrite i b s).cur = s.cur := rfl
@[simp] theorem memWrite_work (i : Nat) (b : Byte) (s : State) : (memWrite i b s).work = s.work := rfl
@[simp] theorem memWrite_prog (i : Nat) (b : Byte) (s : State) : (memWrite i b s).prog = s.prog := rfl
@[simp] theorem memWrite_pc (i : Nat) (b : Byte) (s : State) : (memWrite i b s).pc = s.pc := rfl
@[simp] theorem memWrite_vars (i : Nat) (b : Byte) (s : State) : (memWrite i b s).vars = s.vars.write i b := rfl
@[simp] theorem memWrite_vlen (i : Nat) (b : Byte) (s : State) : (memWrite i b s).vlen = max s.vlen (i + 1) := rfl
@[simp] theorem memWrite_inBytes (i : Nat) (b : Byte) (s : State) : (memWrite i b s).inBytes = s.inBytes := rfl
@[simp] theorem memWrite_inPos (i : Nat) (b : Byte) (s : State) : (memWrite i b s).inPos = s.inPos := rfl
@[simp] theorem memWrite_inClosed (i : Nat) (b : Byte) (s : State) : (memWrite i b s).inClosed = s.inClosed := rfl
@[simp] theorem memWrite_out (i : Nat) (b : Byte) (s : State) : (memWrite i b s).out = s.out := rfl
@[simp] theorem memWrite_phase (i : Nat) (b : Byte) (s : State) : (memWrite i b s).phase = s.phase := rfl
@[simp] theorem memWrite_cause (i : Nat) (b : Byte) (s : State) : (memWrite i b s).cause = s.cause := rfl
@[simp] theorem memWrite_params (i : Nat) (b : Byte) (s : State) : (memWrite i b s).params = s.params := rfl

/-! ### outPut -/

@[simp] theorem outPut_value (c : Byte) (s : State) : (outPut c s).value = s.value := rfl
@[simp] theorem outPut_cur (c : Byte) (s : State) : (outPut c s).cur = s.cur := rfl
@[simp] theorem outPut_work (c : Byte) (s : State) : (outPut c s).work = s.work := rfl
@[simp] theorem outPut_prog (c : Byte) (s : State) : (outPut c s).prog = s.prog := rfl
@[simp] theorem outPut_pc (c : Byte) (s : State) : (outPut c s).pc = s.pc := rfl
@[simp] theorem outPut_vars (c : Byte) (s : State) : (outPut c s).vars = s.vars := rfl
@[simp] theorem outPut_vlen (c : Byte) (s : State) : (outPut c s).vlen = s.vlen := rfl
@[simp] theorem outPut_inBytes (c : Byte) (s : State) : (outPut c s).inBytes = s.inBytes := rfl
@[simp] theorem outPut_inPos (c : Byte) (s : State) : (outPut c s).inPos = s.inPos := rfl
@[simp] theorem outPut_inClosed (c : Byte) (s : State) : (outPut c s).inClosed = s.inClosed := rfl
@[simp] theorem outPut_out (c : Byte) (s : State) : (outPut c s).out = s.out ++ [c] := rfl
@[simp] theorem outPut_phase (c : Byte) (s : State) : (outPut c s).phase = s.phase := rfl
@[simp] theorem outPut_cause (c : Byte) (s : State) : (outPut c s).cause = s.cause := rfl
@[simp] theorem outPut_params (c : Byte) (s : State) : (outPut c s).params = s.params := rfl

/-! ### setPc -/

@[simp] theorem setPc_value (x : Int) (s : State) : (setPc x s).value = s.value := rfl
@[simp] theorem setPc_cur (x : Int) (s : State) : (setPc x s).cur = s.cur := rfl
@[simp] theorem setPc_work (x : Int) (s : State) : (setPc x s).work = s.work := rfl
@[simp] theorem setPc_prog (x : Int) (s : State) : (setPc x s).prog = s.prog := rfl
@[simp] theorem setPc_pc (x : Int) (s : State) : (setPc x s).pc = x := rfl
@[simp] theorem setPc_vars (x : Int) (s : State) : (setPc x s).vars = s.vars := rfl
@[simp] theorem setPc_vlen (x : Int) (s : State) : (setPc x s).vlen = s.vlen := rfl
@[simp] theorem setPc_inBytes (x : Int) (s : State) : (setPc x s).inBytes = s.inBytes := rfl
@[simp] theorem setPc_inPos (x : Int) (s : State) : (setPc x s).inPos = s.inPos := rfl
@[simp] theorem setPc_inClosed (x : Int) (s : State) : (setPc x s).inClosed = s.inClosed := rfl
@[simp] theorem setPc_out (x : Int) (s : State) : (setPc x s).out = s.out := rfl
@[simp] theorem setPc_phase (x : Int) (s : State) : (setPc x s).phase = s.phase := rfl
@[simp] theorem setPc_cause (x : Int) (s : State) : (setPc x s).cause = s.cause := rfl
@[simp] theorem setPc_params (x : Int) (s : State) : (setPc x s).params = s.params := rfl

/-! ### advance -/

@[simp] theorem advance_value (s : State) : (advance s).value = s.value := rfl
@[simp] theorem advance_cur (s : State) : (advance s).cur = s.cur := rfl
@[simp] theorem advance_work (s : State) : (advance s).work = s.work := rfl
@[simp] theorem advance_prog (s : State) : (advance s).prog = s.prog := rfl
@[simp] theorem advance_pc (s : State) : (advance s).pc = s.pc + 1 := rfl
@[simp] theorem advance_vars (s : State) : (advance s).vars = s.vars := rfl
@[simp] theorem advance_vlen (s : State) : (advance s).vlen = s.vlen := rfl
@[simp] theorem advance_inBytes (s : State) : (advance s).inBytes = s.inBytes := rfl
@[simp] theorem advance_inPos (s : State) : (advance s).inPos = s.inPos := rfl
@[simp] theorem advance_inClosed (s : State) : (advance s).inClosed = s.inClosed := rfl
@[simp] theorem advance_out (s : State) : (advance s).out = s.out := rfl
@[simp] theorem advance_phase (s : State) : (advance s).phase = s.phase := rfl
@[simp] theorem advance_cause (s : State) : (advance s).cause = s.cause := rfl
@[simp] theorem advance_params (s : State) : (advance s).params = s.params := rfl

/-! ### halt -/

@[simp] theorem halt_value (s : State) : (halt s).value = s.value := rfl
@[simp] theorem halt_cur (s : State) : (halt s).cur = s.cur := rfl
@[simp] theorem halt_work (s : State) : (halt s).work = s.work := rfl
@[simp] theorem halt_prog (s : State) : (halt s).prog = s.prog := rfl
@[simp] theorem halt_pc (s : State) : (halt s).pc = s.pc := rfl
@[simp] theorem halt_vars (s : State) : (halt s).vars = s.vars := rfl
@[simp] theorem halt_vlen (s : State) : (halt s).vlen = s.vlen := rfl
@[simp] theorem halt_inBytes (s : State) : (halt s).inBytes = s.inBytes := rfl
@[simp] theorem halt_inPos (s : State) : (halt s).inPos = s.inPos := rfl
@[simp] theorem halt_inClosed (s : State) : (halt s).inClosed = s.inClosed := rfl
@[simp] theorem halt_out (s : State) : (halt s).out = s.out := rfl
@[simp] theorem halt_phase (s : State) : (halt s).phase = .halted := rfl
@[simp] theorem halt_cause (s : State) : (halt s).cause = s.cause := rfl
@[simp] theorem halt_params (s : State) : (halt s).params = s.params := rfl

/-! ### raiseTruncated -/

@[simp] theorem raiseTruncated_value (s : State) : (raiseTruncated s).value = s.value := rfl
@[simp] theorem raiseTruncated_cur (s : State) : (raiseTruncated s).cur = s.cur := rfl
@[simp] theorem raiseTruncated_work (s : State) : (raiseTruncated s).work = .node .root := rfl
@[simp] theorem raiseTruncated_prog (s : State) : (raiseTruncated s).prog = [] := rfl
@[simp] theorem raiseTruncated_pc (s : State) : (raiseTruncated s).pc = s.pc := rfl
@[simp] theorem raiseTruncated_vars (s : State) : (raiseTruncated s).vars = s.vars := rfl
@[simp] theorem raiseTruncated_vlen (s : State) : (raiseTruncated s).vlen = s.vlen := rfl
@[simp] theorem raiseTruncated_inBytes (s : State) : (raiseTruncated s).inBytes = s.inBytes := rfl
@[simp] theorem raiseTruncated_inPos (s : State) : (raiseTruncated s).inPos = s.inPos := rfl
@[simp] theorem raiseTruncated_inClosed (s : State) : (raiseTruncated s).inClosed = s.inClosed := rfl
@[simp] theorem raiseTruncated_out (s : State) : (raiseTruncated s).out = s.out := rfl
@[simp] theorem raiseTruncated_phase (s : State) : (raiseTruncated s).phase = .fault := rfl
@[simp] theorem raiseTruncated_cause (s : State) : (raiseTruncated s).cause = .truncatedProgram := rfl
@[simp] theorem raiseTruncated_params (s : State) : (raiseTruncated s).params = s.params := rfl

/-! ### sentinelSearch -/

@[simp] theorem sentinelSearch_value (s : State) : (sentinelSearch s).value = s.value := rfl
@[simp] theorem sentinelSearch_cur (s : State) : (sentinelSearch s).cur = sentinelCur s.value := rfl
@[simp] theorem sentinelSearch_work (s : State) : (sentinelSearch s).work = s.work := rfl
@[simp] theorem sentinelSearch_prog (s : State) : (sentinelSearch s).prog = s.prog := rfl
@[simp] theorem sentinelSearch_pc (s : State) : (sentinelSearch s).pc = s.pc := rfl
@[simp] theorem sentinelSearch_vars (s : State) : (sentinelSearch s).vars = s.vars := rfl
@[simp] theorem sentinelSearch_vlen (s : State) : (sentinelSearch s).vlen = s.vlen := rfl
@[simp] theorem sentinelSearch_inBytes (s : State) : (sentinelSearch s).inBytes = s.inBytes := rfl
@[simp] theorem sentinelSearch_inPos (s : State) : (sentinelSearch s).inPos = s.inPos := rfl
@[simp] theorem sentinelSearch_inClosed (s : State) : (sentinelSearch s).inClosed = s.inClosed := rfl
@[simp] theorem sentinelSearch_out (s : State) : (sentinelSearch s).out = s.out := rfl
@[simp] theorem sentinelSearch_phase (s : State) : (sentinelSearch s).phase = s.phase := rfl
@[simp] theorem sentinelSearch_cause (s : State) : (sentinelSearch s).cause = s.cause := rfl
@[simp] theorem sentinelSearch_params (s : State) : (sentinelSearch s).params = s.params := rfl

/-! ### loadProgram -/

@[simp] theorem loadProgram_value (p : List Instr) (s : State) : (loadProgram p s).value = encodeProgram p := rfl
@[simp] theorem loadProgram_cur (p : List Instr) (s : State) : (loadProgram p s).cur = -1 := rfl
@[simp] theorem loadProgram_work (p : List Instr) (s : State) : (loadProgram p s).work = .node .root := rfl
@[simp] theorem loadProgram_prog (p : List Instr) (s : State) : (loadProgram p s).prog = p := rfl
@[simp] theorem loadProgram_pc (p : List Instr) (s : State) : (loadProgram p s).pc = 0 := rfl
@[simp] theorem loadProgram_vars (p : List Instr) (s : State) : (loadProgram p s).vars = s.vars := rfl
@[simp] theorem loadProgram_vlen (p : List Instr) (s : State) : (loadProgram p s).vlen = s.vlen := rfl
@[simp] theorem loadProgram_inBytes (p : List Instr) (s : State) : (loadProgram p s).inBytes = s.inBytes := rfl
@[simp] theorem loadProgram_inPos (p : List Instr) (s : State) : (loadProgram p s).inPos = s.inPos := rfl
@[simp] theorem loadProgram_inClosed (p : List Instr) (s : State) : (loadProgram p s).inClosed = s.inClosed := rfl
@[simp] theorem loadProgram_out (p : List Instr) (s : State) : (loadProgram p s).out = s.out := rfl
@[simp] theorem loadProgram_phase (p : List Instr) (s : State) : (loadProgram p s).phase = .run := rfl
@[simp] theorem loadProgram_cause (p : List Instr) (s : State) : (loadProgram p s).cause = .none := rfl
@[simp] theorem loadProgram_params (p : List Instr) (s : State) : (loadProgram p s).params = s.params := rfl

/-! ### The Host's view -/

/-- In DECODE the view shows neither N nor a final state (log 24). -/
theorem hostView_of_decode {s : State} (h : s.phase = .decode) :
    s.hostView = { phase := .decode, cause := s.cause, count := none, inPos := s.inPos, out := s.out, final := none } := by
  simp [State.hostView, h]

/-- Once the Decoder has finished, the view shows N (D10). -/
theorem hostView_count {s : State} (h : s.phase ≠ .decode) : s.hostView.count = some (instrCount s) := by
  simp [State.hostView, h]

end Sys2Proof.Machine
end

