-- ==== Sys2Proof/Laws/Decoder.lean ====
section
/-! SUPPORT. The bit-serial Decoder: what a walk through the dispatch tree gives, and what one step of it does. -/

namespace Sys2Proof.Machine

/-! ### The dispatch tree against the prefix-code table -/

/-- A unary code read at a first operand leaves the node that `finishOperandA` gives (R50, R51). -/
theorem decodeFrom_operandA (op : Opcode) (k j : Nat) (rest : List Bool) :
    decodeFrom (.operandA op k) (unary j ++ rest) =
      match decodeFrom (finishOperandA op (k + j)).1 rest with
      | .ok p => .ok ((finishOperandA op (k + j)).2.toList ++ p)
      | .error e => .error e := by
  induction j generalizing k with
  | zero => rfl
  | succ j ih =>
    rw [unary_succ, List.cons_append, decodeFrom]
    simp only [feed, ih]
    rw [show k + 1 + j = k + (j + 1) by omega]
    split <;> simp_all

/-- A unary code read at JUMP's second operand completes the JUMP (R50, R51). -/
theorem decodeFrom_operandB (c k j : Nat) (rest : List Bool) :
    decodeFrom (.operandB c k) (unary j ++ rest) =
      match decodeFrom .root rest with
      | .ok p => .ok (.jump c (k + j) :: p)
      | .error e => .error e := by
  induction j generalizing k with
  | zero => rfl
  | succ j ih =>
    rw [unary_succ, List.cons_append, decodeFrom]
    simp only [feed, ih]
    rw [show k + 1 + j = k + (j + 1) by omega]
    split <;> simp_all

/-- A walk that meets only ones inside an operand is truncated. -/
theorem decodeFrom_operandA_ones (op : Opcode) (k j : Nat) :
    decodeFrom (.operandA op k) (List.replicate j true) = .error .truncatedProgram := by
  induction j generalizing k with
  | zero => rfl
  | succ j ih => rw [List.replicate_succ, decodeFrom]; simp only [feed, ih]

theorem decodeFrom_operandB_ones (c k j : Nat) :
    decodeFrom (.operandB c k) (List.replicate j true) = .error .truncatedProgram := by
  induction j generalizing k with
  | zero => rfl
  | succ j ih => rw [List.replicate_succ, decodeFrom]; simp only [feed, ih]

/-- Every stream is a unary code and a rest, or only ones (R51). -/
theorem unary_or_ones (bits : List Bool) :
    (∃ k rest, bits = unary k ++ rest) ∨ ∃ k, bits = List.replicate k true := by
  induction bits with
  | nil => exact .inr ⟨0, rfl⟩
  | cons b bits ih =>
    cases b with
    | false => exact .inl ⟨0, bits, rfl⟩
    | true =>
      obtain ⟨k, rest, rfl⟩ | ⟨k, rfl⟩ := ih
      · exact .inl ⟨k + 1, rest, by rw [unary_succ, List.cons_append]⟩
      · exact .inr ⟨k + 1, by rw [List.replicate_succ]⟩

theorem readIndex_ones (k : Nat) : readIndex (List.replicate k true) = .error .truncatedProgram := by
  induction k with
  | zero => rfl
  | succ k ih => rw [List.replicate_succ, readIndex, ih]

/-- From the root, the bits of an instruction complete it and come back to the root (R50). -/
theorem decodeFrom_encode (i : Instr) (rest : List Bool) :
    decodeFrom .root (encode i ++ rest) =
      match decodeFrom .root rest with
      | .ok p => .ok (i :: p)
      | .error e => .error e := by
  cases i <;>
    simp only [encode, List.cons_append, List.nil_append, List.append_assoc, decodeFrom, feed, decodeFrom_operandA,
      decodeFrom_operandB, finishOperandA, Bool.false_eq_true, if_false, if_true, Nat.zero_add] <;>
    cases decodeFrom .root rest <;> simp

/-- A stream that does not start with a whole instruction is truncated in the tree too (R53, R54). -/
theorem decodeFrom_error {bits : List Bool} {e : DecodeError} (hne : bits ≠ []) (h : decodeOne bits = .error e) :
    decodeFrom .root bits = .error .truncatedProgram := by
  have key : ∀ op rest, readOperands op rest = .error e → decodeFrom (.operandA op 0) rest = .error .truncatedProgram := by
    intro op rest hop
    obtain ⟨k, r, rfl⟩ | ⟨k, rfl⟩ := unary_or_ones rest
    · cases op <;> simp [readOperands, readOne] at hop
      obtain ⟨j, r', rfl⟩ | ⟨j, rfl⟩ := unary_or_ones r
      · simp at hop
      · rw [decodeFrom_operandA]; simp only [finishOperandA, decodeFrom_operandB_ones]
    · exact decodeFrom_operandA_ones op 0 k
  match bits, hne with
  | [false], _ => rfl
  | [true], _ => rfl
  | [true, false], _ => rfl
  | false :: false :: rest, _ =>
    have := key .print rest (by simpa [decodeOne, readOpcode] using h)
    simp [decodeFrom, feed, this]
  | false :: true :: rest, _ =>
    have := key .input rest (by simpa [decodeOne, readOpcode] using h)
    simp [decodeFrom, feed, this]
  | true :: true :: rest, _ =>
    have := key .jump rest (by simpa [decodeOne, readOpcode] using h)
    simp [decodeFrom, feed, this]
  | true :: false :: false :: rest, _ =>
    have := key .inc rest (by simpa [decodeOne, readOpcode] using h)
    simp [decodeFrom, feed, this]
  | true :: false :: true :: rest, _ =>
    have := key .dec rest (by simpa [decodeOne, readOpcode] using h)
    simp [decodeFrom, feed, this]

/-- A walk from the root through a whole stream gives what the pure decoder gives (R50 against R65, R66). -/
theorem decodeFrom_root (bits : List Bool) : decodeFrom .root bits = decodeBits bits := by
  induction hn : bits.length using Nat.strong_induction_on generalizing bits with
  | _ n ih =>
    by_cases hne : bits = []
    · subst hne; rfl
    · rw [decodeBits_eq hne]
      cases h : decodeOne bits with
      | ok ir =>
        obtain ⟨i, rest⟩ := ir
        have hb := eq_encode_of_decodeOne h
        have hr := ih rest.length (by have := length_rest_of_decodeOne h; omega) rest rfl
        rw [hb, decodeFrom_encode, hr]
        all_goals rfl
      | error e => rw [decodeFrom_error hne h, error_eq e]

/-! ### The cursor -/

theorem bitsLeft_nil {s : State} (h : s.cur < 0) : s.bitsLeft = [] := by
  rw [State.bitsLeft, show (s.cur + 1).toNat = 0 by omega]; rfl

/-- With a bit left, `NextBit()` gives the first of the bits left and leaves the others (R62). -/
theorem nextBit_of_bits {s : State} (h : 0 ≤ s.cur) :
    ∃ b, nextBit s = .ok (b, { s with cur := s.cur - 1 }) ∧
      s.bitsLeft = b :: ({ s with cur := s.cur - 1 } : State).bitsLeft := by
  refine ⟨s.value.testBit s.cur.toNat, by rw [nextBit, if_neg (by omega)], ?_⟩
  simp only [State.bitsLeft, sub_add_cancel]
  rw [show (s.cur + 1).toNat = s.cur.toNat + 1 by omega, bitsBelow]

/-- Everything a step in the tree can do (R50, R66, R67). -/
theorem treeStep_cases (n : TreeNode) (s : State) :
    (n = .root ∧ s.cur < 0 ∧ treeStep n s = { s with phase := .run }) ∨
    (n ≠ .root ∧ s.cur < 0 ∧ treeStep n s = raiseTruncated s) ∨
    (0 ≤ s.cur ∧ ∃ b, s.bitsLeft = b :: ({ s with cur := s.cur - 1 } : State).bitsLeft ∧
      treeStep n s = { s with cur := s.cur - 1, work := .node (feed n b).1, prog := s.prog ++ (feed n b).2.toList }) := by
  by_cases hc : s.cur < 0
  · by_cases hn : n = .root
    · exact .inl ⟨hn, hc, by simp [treeStep, hn, hc]⟩
    · exact .inr (.inl ⟨hn, hc, by simp [treeStep, hn, nextBit, hc]⟩)
  · obtain ⟨b, hb, hl⟩ := nextBit_of_bits (not_lt.mp hc)
    exact .inr (.inr ⟨not_lt.mp hc, b, hl, by simp [treeStep, hc, hb]⟩)

/-- The sentinel search leaves all the program bits (R61). -/
theorem bitsLeft_sentinel (s : State) : (sentinelSearch s).bitsLeft = programBits s.value := by
  simp only [State.bitsLeft, sentinelSearch_value, sentinelSearch_cur, programBits]
  congr 1
  by_cases h : s.value = 0
  · simp [sentinelCur, h]
  · simp only [sentinelCur, h, if_false]; omega

end Sys2Proof.Machine
end

