-- ==== Sys2Proof/Laws/Memory.lean ====
section
/-! SUPPORT. The laws of the variable store: a read after a write, and the canonical form is kept. -/

namespace Sys2Proof.Machine

@[simp] theorem read_nil (i : Nat) : Memory.read [] i = 0#8 := rfl

@[simp] theorem read_cons (c : Host.Cell) (m : Memory) (i : Nat) :
    Memory.read (c :: m) i = if i = c.1 then c.2 else Memory.read m i := rfl

/-- An index no entry lists reads as unlisted. -/
theorem read_of_not_listed {m : Memory} {i : Nat} (h : ∀ c ∈ m, c.1 ≠ i) : m.read i = 0#8 := by
  induction m with
  | nil => rfl
  | cons c m ih =>
    have hc : i ≠ c.1 := fun e => h c (by simp) e.symm
    simpa [hc] using ih fun d hd => h d (by simp [hd])

/-- An index that reads as something else is listed. -/
theorem listed_of_read {m : Memory} {i : Nat} (h : m.read i ≠ 0#8) : ∃ c ∈ m, c.1 = i := by
  by_contra hn
  exact h (read_of_not_listed fun c hc e => hn ⟨c, hc, e⟩)

theorem read_filter_same (m : Memory) (i : Nat) : Memory.read (m.filter (fun c => c.1 != i)) i = 0#8 :=
  read_of_not_listed fun c hc => by simpa using (List.mem_filter.mp hc).2

theorem read_filter_other (m : Memory) {i j : Nat} (h : j ≠ i) :
    Memory.read (m.filter (fun c => c.1 != i)) j = m.read j := by
  induction m with
  | nil => rfl
  | cons c m ih =>
    by_cases hc : c.1 = i
    · have : j ≠ c.1 := fun e => h (e.trans hc)
      simp [hc, h, ih]
    · simp [hc, ih]

theorem mem_insert {c d : Host.Cell} {m : Memory} : d ∈ Memory.insert c m ↔ d = c ∨ d ∈ m := by
  induction m with
  | nil => simp [Memory.insert]
  | cons e m ih =>
    simp only [Memory.insert]
    split
    · simp
    · simp [ih]; tauto

theorem read_insert_same {c : Host.Cell} {m : Memory} (h : ∀ d ∈ m, d.1 ≠ c.1) : (Memory.insert c m).read c.1 = c.2 := by
  induction m with
  | nil => simp [Memory.insert]
  | cons e m ih =>
    have he : c.1 ≠ e.1 := fun x => h e (by simp) x.symm
    simp only [Memory.insert]
    split
    · simp
    · simpa [he] using ih fun d hd => h d (by simp [hd])

theorem read_insert_other {c : Host.Cell} {m : Memory} {j : Nat} (h : j ≠ c.1) : (Memory.insert c m).read j = m.read j := by
  induction m with
  | nil => simp [Memory.insert, h]
  | cons e m ih =>
    simp only [Memory.insert]
    split
    · simp [h]
    · simp [ih]

/-- A read of the index written gives the byte written (R80). -/
@[simp] theorem read_write_same (m : Memory) (i : Nat) (b : Byte) : (m.write i b).read i = b := by
  by_cases hb : b = Memory.unlisted
  · simp only [Memory.write, hb, if_true]; exact read_filter_same m i
  · simp only [Memory.write, hb, if_false]
    exact read_insert_same (c := (i, b)) fun d hd => by simpa using (List.mem_filter.mp hd).2

/-- A write leaves every other index alone (R80). -/
theorem read_write_other (m : Memory) {i j : Nat} (b : Byte) (h : j ≠ i) : (m.write i b).read j = m.read j := by
  by_cases hb : b = Memory.unlisted
  · simp only [Memory.write, hb, if_true]; exact read_filter_other m h
  · simp only [Memory.write, hb, if_false]
    rw [read_insert_other (c := (i, b)) h, read_filter_other m h]

theorem read_write (m : Memory) (i j : Nat) (b : Byte) : (m.write i b).read j = if j = i then b else m.read j := by
  split
  · subst j; simp
  · exact read_write_other m b ‹_›

theorem wf_nil : Memory.wf [] := by simp [Memory.wf]

theorem insert_rising {c : Host.Cell} {m : Memory} (hm : m.Pairwise (fun c d => c.1 < d.1)) (h : ∀ d ∈ m, d.1 ≠ c.1) :
    (Memory.insert c m).Pairwise (fun c d => c.1 < d.1) := by
  induction m with
  | nil => simp [Memory.insert]
  | cons e m ih =>
    obtain ⟨he, hm⟩ := List.pairwise_cons.mp hm
    simp only [Memory.insert]
    split
    · rename_i hlt
      refine List.pairwise_cons.mpr ⟨fun d hd => ?_, List.pairwise_cons.mpr ⟨he, hm⟩⟩
      rcases List.mem_cons.mp hd with rfl | hd
      · exact hlt
      · exact hlt.trans (he d hd)
    · rename_i hle
      refine List.pairwise_cons.mpr ⟨fun d hd => ?_, ih hm fun d hd => h d (by simp [hd])⟩
      rcases mem_insert.mp hd with rfl | hd
      · have := h e (by simp); omega
      · exact he d hd

/-- Every write keeps the canonical form. -/
theorem write_wf {m : Memory} (h : m.wf) (i : Nat) (b : Byte) : (m.write i b).wf := by
  have hr := h.1.filter (fun c : Host.Cell => c.1 != i)
  have hz : ∀ c ∈ m.filter (fun c => c.1 != i), c.2 ≠ Memory.unlisted := fun c hc => h.2 c (List.mem_filter.mp hc).1
  by_cases hb : b = Memory.unlisted
  · simp only [Memory.write, hb, if_true]; exact ⟨hr, hz⟩
  · simp only [Memory.write, hb, if_false]
    refine ⟨insert_rising hr fun d hd => by simpa using (List.mem_filter.mp hd).2, fun c hc => ?_⟩
    rcases mem_insert.mp hc with rfl | hc
    · exact hb
    · exact hz c hc

end Sys2Proof.Machine
end

