-- ==== Sys2Proof/Laws/Ops.lean ====
section
/-! SUPPORT. What the shared operations over the state do, each said once. -/

namespace Sys2Proof.Machine

/-! ### Variables -/

/-- Two states with the same store have the same variables. -/
theorem var_congr {s t : State} (h : s.vars = t.vars) (i : Nat) : s.var i = t.var i := by rw [State.var, State.var, h]

/-- Growing changes no variable (R81). -/
@[simp] theorem grow_var (i j : Nat) (s : State) : (grow i s).var j = s.var j := rfl

@[simp] theorem memRead_fst (i : Nat) (s : State) : (memRead i s).1 = s.var i := rfl

@[simp] theorem memRead_snd (i : Nat) (s : State) : (memRead i s).2 = grow i s := rfl

/-- A variable after a write (R80). -/
theorem memWrite_var (i j : Nat) (b : Byte) (s : State) : (memWrite i b s).var j = if j = i then b else s.var j :=
  read_write s.vars i j b

@[simp] theorem setPc_var (x : Int) (s : State) (j : Nat) : (setPc x s).var j = s.var j := rfl

@[simp] theorem advance_var (s : State) (j : Nat) : (advance s).var j = s.var j := rfl

@[simp] theorem outPut_var (c : Byte) (s : State) (j : Nat) : (outPut c s).var j = s.var j := rfl

/-! ### The input stream -/

/-- `InNext()` by the bytes left (R33). -/
theorem inNext_eq (s : State) :
    inNext s = match s.inLeft with
      | c :: _ => (.byte c, { s with inPos := s.inPos + 1 })
      | [] => (if s.inClosed then .eof else .hold, s) := by
  rw [inNext, State.inLeft]
  by_cases h : s.inPos < s.inBytes.length
  · rw [List.getElem?_eq_getElem h, List.drop_eq_getElem_cons h]
  · rw [List.getElem?_eq_none (by omega), List.drop_eq_nil_of_le (by omega)]
    cases s.inClosed <;> rfl

/-- How the bytes left begin: whitespace, then a byte outside WS or the end. -/
theorem skipWs_eq (fuel : Nat) (s : State) (h : s.inLeft.length ≤ fuel) :
    skipWs fuel s =
      match s.inLeft.dropWhile (isWs s.params) with
      | c :: _ => (.byte c, { s with inPos := s.inPos + (s.inLeft.takeWhile (isWs s.params)).length + 1 })
      | [] => (if s.inClosed then .eof else .hold, { s with inPos := s.inPos + s.inLeft.length }) := by
  induction fuel generalizing s with
  | zero =>
    have hl : s.inLeft = [] := List.eq_nil_of_length_eq_zero (by omega)
    rw [skipWs, inNext_eq, hl]; rfl
  | succ fuel ih =>
    rw [skipWs, inNext_eq]
    cases hl : s.inLeft with
    | nil => rcases hc : s.inClosed with _ | _ <;> simp only [Bool.false_eq_true, if_false, if_true, List.dropWhile_nil] <;> rw [← hc] <;> rfl
    | cons c rest =>
      simp only
      by_cases hw : isWs s.params c
      · have hl' : ({ s with inPos := s.inPos + 1 } : State).inLeft = rest := by
          have : s.inLeft.tail = rest := by rw [hl]; rfl
          rw [← this, State.inLeft, State.inLeft, List.tail_drop]
        rw [if_pos hw, ih _ (by rw [hl']; rw [hl] at h; simpa using h), hl']
        simp only [List.dropWhile_cons, List.takeWhile_cons, hw, if_true, List.length_cons]
        split <;> simp only [Prod.mk.injEq, true_and, State.mk.injEq, and_true] <;> omega
      · rw [if_neg hw]; simp [hw]

/-- INPUT's scan of the stream, in closed form (R33, R86): what is skipped is the leading whitespace of the bytes left. -/
theorem nextChar_eq (s : State) :
    nextChar s =
      match s.inLeft.dropWhile (isWs s.params) with
      | c :: _ => (.byte c, { s with inPos := s.inPos + (s.inLeft.takeWhile (isWs s.params)).length + 1 })
      | [] => (if s.inClosed then .eof else .hold, { s with inPos := s.inPos + s.inLeft.length }) :=
  skipWs_eq _ s (by simp [State.inLeft])

/-- Everything the scan can do: it moves INPOS forward within the stream, and nothing else. -/
theorem nextChar_cases (s : State) :
    ∃ r k, nextChar s = (r, { s with inPos := k }) ∧ s.inPos ≤ k ∧ (s.inPos ≤ s.inBytes.length → k ≤ s.inBytes.length) := by
  rw [nextChar_eq]
  have hlen : s.inLeft.length = s.inBytes.length - s.inPos := by simp [State.inLeft]
  have htd := congrArg List.length (List.takeWhile_append_dropWhile (p := isWs s.params) (l := s.inLeft))
  rw [List.length_append] at htd
  split
  · rename_i c l hd
    rw [hd, List.length_cons] at htd
    exact ⟨_, _, rfl, by omega, by omega⟩
  · exact ⟨_, _, rfl, by omega, by omega⟩

/-! ### The jump offset -/

/-- The offset lies in −128 .. 255 (R15, R96). -/
theorem offset_range (signed : Bool) (b : Byte) : -128 ≤ offset signed b ∧ offset signed b ≤ 255 := by
  have := b.isLt
  cases signed <;> simp only [offset, sext8, zext8, if_true, if_false, Bool.false_eq_true]
  · omega
  · split <;> omega

/-! ### The fetch -/

/-- A fetch gives an instruction exactly when pc is in `0 .. N − 1` (R75, R76). -/
theorem fetch_eq_none_iff (s : State) : fetch s = none ↔ s.pc < 0 ∨ (instrCount s : Int) ≤ s.pc := by
  rw [fetch]
  split
  · simp [*]
  · rw [List.getElem?_eq_none_iff, instrCount]; omega

end Sys2Proof.Machine
end

