-- ==== Sys2Proof/Laws/Step.lean ====
section
/-! SUPPORT. Everything one instruction and one step can do, said once, for the invariants and frames to cite. -/

namespace Sys2Proof.Machine

/-- Everything an instruction can do to the state: it keeps all but pc, the variables, VLEN, INPOS and OUT, and each of
these changes only as its instruction's rule says. -/
structure Effect (i : Instr) (s t : State) : Prop where
  value : t.value = s.value
  cur : t.cur = s.cur
  work : t.work = s.work
  prog : t.prog = s.prog
  inBytes : t.inBytes = s.inBytes
  inClosed : t.inClosed = s.inClosed
  phase : t.phase = s.phase
  cause : t.cause = s.cause
  params : t.params = s.params
  vars : t.vars = s.vars ∨ ∃ v b, t.vars = s.vars.write v b ∧ v + 1 ≤ t.vlen ∧ (i = .input v ∨ i = .inc v ∨ i = .dec v)
  vlen : s.vlen ≤ t.vlen
  inPos : s.inPos ≤ t.inPos
  inPos_le : s.inPos ≤ s.inBytes.length → t.inPos ≤ s.inBytes.length
  inPos_input : t.inPos ≠ s.inPos → ∃ v, i = .input v
  out : t.out = s.out ∨ ∃ v, i = .print v ∧ t.out = s.out ++ [s.var v]
  pc : s.pc - 128 ≤ t.pc ∧ t.pc ≤ s.pc + 255

/-- Every instruction answers a next state, and its effect is within its rule (R77). -/
theorem exec_effect (i : Instr) (s : State) : ∃ t, exec i s = .next t ∧ Effect i s t := by
  cases i with
  | print v =>
    refine ⟨_, rfl, ?_⟩
    constructor <;> simp
    omega
  | inc v =>
    refine ⟨_, rfl, ?_⟩
    constructor <;> simp
    omega
  | dec v =>
    refine ⟨_, rfl, ?_⟩
    constructor <;> simp
    omega
  | jump c o =>
    have hr := offset_range s.params.offsetSigned (s.var o)
    by_cases hx : jumpTaken (s.var c)
    · refine ⟨setPc (s.pc + offset s.params.offsetSigned (s.var o)) (grow o (grow c s)), by simp [exec, execJump, hx], ?_⟩
      constructor <;> simp
      omega
    · refine ⟨advance (grow c s), by simp [exec, execJump, hx], ?_⟩
      constructor <;> simp
      omega
  | input v =>
    obtain ⟨r, k, he, hk, hle⟩ := nextChar_cases s
    cases r with
    | byte c =>
      refine ⟨advance (memWrite v c { s with inPos := k }), by simp [exec, execInput, he], ?_⟩
      constructor <;> simp <;> omega
    | eof =>
      refine ⟨advance (endOfInput v { s with inPos := k }), by simp [exec, execInput, he], ?_⟩
      cases hp : s.params.eofPolicy
      · constructor <;> simp [endOfInput, hp] <;> omega
      · constructor <;> simp [endOfInput, hp] <;> omega
    | hold =>
      refine ⟨{ s with inPos := k }, by simp [exec, execInput, he], ?_⟩
      constructor <;> simp <;> omega

/-- If an instruction answers a next state, its effect is within its rule. -/
theorem effect_of_exec {i : Instr} {s t : State} (h : exec i s = .next t) : Effect i s t := by
  obtain ⟨t', he, ht⟩ := exec_effect i s
  rw [he] at h
  cases h
  exact ht

/-- Everything one step of the core can do (R23, R75, R76). -/
theorem step_cases {s t : State} (h : step s = .next t) :
    ((s.phase = .idle ∨ s.phase = .halted ∨ s.phase = .fault) ∧ t = s) ∨
    (s.phase = .decode ∧ s.work = .search ∧ t = sentinelSearch { s with prog := [], work := .node .root }) ∨
    (∃ n, s.phase = .decode ∧ s.work = .node n ∧ t = treeStep n s) ∨
    (s.phase = .run ∧ fetch s = none ∧ t = halt s) ∨
    (∃ i, s.phase = .run ∧ fetch s = some i ∧ exec i s = .next t) := by
  simp only [step, coreStep] at h
  cases hp : s.phase <;> simp only [hp] at h
  case idle => cases h; simp
  case halted => cases h; simp
  case fault => cases h; simp
  case decode =>
    cases h
    cases hw : s.work with
    | search => simp [decodeStep, hw, hp]
    | node n => simp [decodeStep, hw]
  case run =>
    simp only [machineStep] at h
    split at h
    · cases h; simp [*]
    · simp_all

end Sys2Proof.Machine
end

