-- ==== Sys2Proof/Tests/Slice0.lean ====
section
/-! SUPPORT. The model's own tests, and a witness for the hypotheses of every statement. The expected results are those of
spec/95_test_vectors.md (tables named in each docstring) and of the examples in the rules, not the model's answers. -/

namespace Sys2Proof.Tests

open Sys2Proof.Machine

/-! ### Helpers -/

/-- A machine about to fetch from the program `p`, with given pc and variables; the input is as at reset. -/
def running (p : List Instr) (pc : Int) (vars : Memory) (vlen : Nat) : State :=
  { loadProgram p State.reset with pc := pc, vars := vars, vlen := vlen }

/-- The same machine with an input stream. -/
def withInput (inp : List Byte) (pos : Nat) (closed : Bool) (s : State) : State :=
  { s with inBytes := inp, inPos := pos, inClosed := closed }

/-- The same machine under the other values of OFFSET_SIGNED and EOF_POLICY. -/
def otherParams (s : State) : State :=
  { s with params := { s.params with offsetSigned := false, eofPolicy := .zero } }

/-- The state right after the launch of `v` from reset. -/
def launched (v : Nat) : State :=
  { State.reset with value := v, phase := .decode, work := .search }

/-- What a next state satisfies. -/
def after (o : Host.Outcome State Fault Refusal) (check : State → Bool) : Bool :=
  match o with
  | .next s => check s
  | .fault _ => false
  | .refused _ => false

/-! ### Well-formedness refuses an ill-formed term, check by check -/

/-- T9: `PRINT(61)` needs 65 bits. -/
theorem test_wf_refuses_long_instruction : Instr.wf 64 (.print 61) = false ∧ Instr.wf 64 (.print 60) = true := by decide

/-- T9: 21 instructions of 3 bits are the most a 64-bit port carries. -/
theorem test_wf_refuses_long_program :
    programWf 64 (List.replicate 22 (.print 0)) = false ∧ programWf 64 (List.replicate 21 (.print 0)) = true := by decide

/-- R89: WS without space, without tab, without newline, with a repeat. -/
theorem test_wf_refuses_bad_ws :
    Params.wf { recommendedParams with ws := [0x09#8, 0x0A#8] } = false ∧
    Params.wf { recommendedParams with ws := [0x20#8, 0x0A#8] } = false ∧
    Params.wf { recommendedParams with ws := [0x20#8, 0x09#8] } = false ∧
    Params.wf { recommendedParams with ws := [0x20#8, 0x09#8, 0x0A#8, 0x20#8] } = false := by decide

/-! ### Decoding: words written out from the encoding tables (T2, T3) -/

theorem test_decode_print : decodeAll 0b1_00_1110 = .ok [.print 3] := by decide
theorem test_decode_input : decodeAll 0b1_01_110 = .ok [.input 2] := by decide
theorem test_decode_inc : decodeAll 0b1_100_10 = .ok [.inc 1] := by decide
theorem test_decode_dec : decodeAll 0b1_101_11110 = .ok [.dec 4] := by decide
theorem test_decode_jump : decodeAll 0b1_11_110_10 = .ok [.jump 2 1] := by decide

/-- T2: several instructions in one integer, in stream order. -/
theorem test_decode_sequence : decodeAll 0b1_01_0_100_0_00_0 = .ok [.input 0, .inc 0, .print 0] := by decide

/-- S8, T5: `1,0` with no third bit; a whole instruction and a stray bit. -/
theorem test_decode_truncated :
    decodeAll 0b1_10 = .error .truncatedProgram ∧ decodeAll 0b1_00_0_0 = .error .truncatedProgram := by decide

/-- T3, T9: the encoder gives the integers of the tables. -/
theorem test_encode :
    encodeProgram [.dec 4] = 446 ∧ encodeProgram [.jump 1 2] = 246 ∧ encodeProgram [.print 60] = 0x9FFFFFFFFFFFFFFE ∧
    encodeProgram [.jump 30 29] = 0xFFFFFFFFBFFFFFFE := by decide

/-- R55: the constructor notation. -/
theorem test_text : Instr.text (.jump 2 1) = "JUMP(2, 1)" ∧ Instr.text (.print 0) = "PRINT(0)" := by decide

/-- A word of the opcode table, placed at reset, is what the next step runs. -/
theorem test_fetch_word : after (step (State.reset.withFetchWord 8 5)) (fun s => s.var 0 == 255#8 && s.pc == 1) := by decide

/-- R70: the first two steps of the decoding of 250: the search, then the first prefix bit. -/
theorem test_decoder_first_steps :
    after (step (launched 250)) (fun s => s.cur == 6 && s.work == .node .root) = true ∧
    after (step { launched 250 with cur := 6, work := .node .root }) (fun s => s.cur == 5 && s.work == .node .p1) = true := by
  decide

/-! ### The instructions (T6, T7, T8), one step each -/

/-- T8 row 1: a never-written variable prints a null byte. -/
theorem test_print_null : after (exec (.print 0) (running [.print 0] 0 [] 0)) (fun s => s.out == [0#8] && s.pc == 1) := by decide

/-- T8 row 3: a whitespace byte is printed like any other. -/
theorem test_print_newline : after (exec (.print 0) (running [] 0 [(0, 0x0A#8)] 1)) (fun s => s.out == [0x0A#8]) := by decide

/-- T8 row 6: three bytes skipped, one stored, the next left. -/
theorem test_input_skips :
    after (exec (.input 3) (withInput [0x20#8, 0x0A#8, 0x09#8, 0x41#8, 0x42#8] 0 true (running [] 0 [] 0)))
      (fun s => s.var 3 == 0x41#8 && s.inPos == 4) := by decide

/-- T8 row 10: the end of input under both policies. -/
theorem test_input_eof :
    after (exec (.input 2) (withInput [] 0 true (running [] 0 [(2, 7#8)] 3))) (fun s => s.var 2 == 7#8 && s.pc == 1) = true ∧
    after (exec (.input 2) (withInput [] 0 true (otherParams (running [] 0 [(2, 7#8)] 3))))
      (fun s => s.var 2 == 0#8 && s.pc == 1) = true := by decide

/-- T6 row 3: INC wraps. -/
theorem test_inc_wraps : after (exec (.inc 1) (running [] 2 [(1, 255#8)] 2)) (fun s => s.vars == [] && s.pc == 3) := by decide

/-- T6 row 9: no aliasing. -/
theorem test_inc_other : after (exec (.inc 0) (running [] 0 [(0, 7#8), (1, 9#8)] 2)) (fun s => s.var 0 == 8#8 && s.var 1 == 9#8) := by
  decide

/-- T6 row 4: DEC of a never-written variable. -/
theorem test_dec_wraps :
    after (exec (.dec 4) (running [] 0 [] 0)) (fun s => s.vars == [(4, 255#8)] && s.vlen == 5 && s.pc == 1) := by decide

/-- T6 row 5. -/
theorem test_dec_sign : after (exec (.dec 2) (running [] 0 [(2, 128#8)] 3)) (fun s => s.var 2 == 127#8) := by decide

/-- T7 row 10: backward when signed, forward when unsigned. -/
theorem test_jump_offset :
    after (exec (.jump 3 1) (running [] 9 [(1, 253#8)] 2)) (fun s => s.pc == 6) = true ∧
    after (exec (.jump 3 1) (otherParams (running [] 9 [(1, 253#8)] 2))) (fun s => s.pc == 262) = true := by decide

/-- T7 rows 4 and 11: not taken; one variable for both operands. -/
theorem test_jump_not_taken :
    after (exec (.jump 0 1) (running [] 5 [(0, 200#8), (1, 255#8)] 2)) (fun s => s.pc == 6) = true ∧
    after (exec (.jump 4 4) (running [] 2 [] 0)) (fun s => s.pc == 2) = true := by decide

/-! ### Witnesses: concrete states and operands that meet the hypotheses of each statement -/

/-- A running state that meets the invariant: `JUMP(0, 1)` is about to be fetched, V[1] = 200. -/
theorem witness_inv_running : (running [.jump 0 1] 0 [(1, 200#8)] 2).Inv where
  vars_wf := by decide
  vars_below := by
    intro i hi
    have h : i ≠ 1 := by intro e; subst e; exact absurd hi (by decide)
    simp [State.var, running, Memory.read, h, Memory.unlisted]
  inPos_le := by decide
  value_lt := by decide
  cur_ge := by decide
  cur_le := by decide
  cause_iff := by decide
  idle := by decide
  decoding := by intro h; exact absurd h (by decide)
  rest := by decide
  decoded := by decide
  faulted := by decide
  unstarted := by decide
  pc_range := by decide
  halted := by decide

theorem witness_EveryStreamSelectsAnOpcode : 3 ≤ [true, false, true].length := by decide

theorem witness_EncodingsArePrefixFree : encode (.inc 0) ++ [true] = encode (.inc 0) ++ [true] := rfl

theorem witness_ValueIsTheImageOfItsDecoding : 1 ≤ 250 ∧ decodeAll 250 = .ok [.jump 2 1] := by decide

theorem witness_OddValuesAreTruncated : 9 % 2 = 1 ∧ 1 < 9 := by decide

theorem witness_PortWidthBoundsPrograms : 2 ^ 63 < 2 ^ 64 ∧ decodeAll (2 ^ 63) = .ok (List.replicate 21 (.print 0)) := by decide

/-- Both clauses: VALUE = 0 at reset, VALUE = 1 and the greatest 64-bit value. -/
theorem witness_SentinelSearchFindsHighestBit :
    State.reset.value = 0 ∧ (launched 1).value ≠ 0 ∧ (launched (2 ^ 64 - 1)).value ≠ 0 := by decide

theorem witness_NextBitReadsDownward : State.reset.cur < 0 ∧ 0 ≤ ({ launched 2 with cur := 0 } : State).cur := by decide

theorem witness_DecoderComputesDecodeAll : (launched 250).phase = .decode ∧ (launched 250).work = .search := by decide

theorem witness_TruncationIsTaken :
    ({ launched 6 with work := .node .p10 } : State).phase = .decode ∧
    ({ launched 6 with work := .node .p10 } : State).work = .node .p10 ∧ TreeNode.p10 ≠ .root ∧
    ({ launched 6 with work := .node .p10 } : State).cur < 0 := by decide

theorem witness_DecodingEndsAtABoundary :
    ({ launched 1 with work := .node .root } : State).phase = .decode ∧
    ({ launched 1 with work := .node .root } : State).work = .node .root ∧
    ({ launched 1 with work := .node .root } : State).cur < 0 := by decide

theorem witness_DecoderTouchesOnlyItsOwnState :
    ∃ t, (launched 250).phase = .decode ∧ step (launched 250) = .next t := ⟨_, rfl, rfl⟩

theorem witness_PortWidthChangesNoStep : ∃ t, runSteps 2 (running [.inc 0] 0 [] 0) = .next t := ⟨_, rfl⟩

theorem witness_VariableRead : State.reset.vars = [] := rfl

theorem witness_CanonicalStoresAreEqualData :
    Memory.wf [(1, 2#8), (3, 4#8)] ∧ ∀ i, Memory.read [(1, 2#8), (3, 4#8)] i = Memory.read [(1, 2#8), (3, 4#8)] i :=
  ⟨by decide, fun _ => rfl⟩

theorem witness_StepRunsTheFetchedInstruction :
    (running [.jump 0 1] 0 [(1, 200#8)] 2).phase = .run ∧ 0 ≤ (running [.jump 0 1] 0 [(1, 200#8)] 2).pc ∧
    (running [.jump 0 1] 0 [(1, 200#8)] 2).prog[(0 : Int).toNat]? = some (.jump 0 1) ∧
    (running [.jump 0 1] 0 [(1, 200#8)] 2).Inv ∧
    decodeAll (running [.jump 0 1] 0 [(1, 200#8)] 2).value = .ok [.jump 0 1] :=
  ⟨by decide, by decide, by decide, witness_inv_running, by decide⟩

theorem witness_FetchWordRunsItsInstruction : decodeTableWord 8 4 = some (.inc 0) := by decide

/-- Both clauses, at their boundaries: pc = −1 and pc = N. -/
theorem witness_PcOutOfRangeHalts :
    (running [.inc 0] (-1) [] 0).phase = .run ∧ (running [.inc 0] (-1) [] 0).pc < 0 ∧
    (running [.inc 0] 1 [] 0).phase = .run ∧ (instrCount (running [.inc 0] 1 [] 0) : Int) ≤ (running [.inc 0] 1 [] 0).pc := by
  decide

theorem witness_OutsideDecodeAndRunTheCoreStays :
    State.reset.phase = .idle ∧ (halt State.reset).phase = .halted ∧ (raiseTruncated State.reset).phase = .fault := by decide

/-- Both clauses: the condition variable zero, and 1. -/
theorem witness_JumpTakenExactlyOnZero : State.reset.var 0 = 0#8 ∧ (running [] 0 [(0, 1#8)] 1).var 0 ≠ 0#8 := by decide

/-- Both clauses, at their boundaries: 127 and 128. -/
theorem witness_OffsetReadings : (127#8).toNat < 128 ∧ 128 ≤ (128#8).toNat := by decide

theorem witness_JumpOffsetZeroRunsForever :
    (running [.jump 0 0] 0 [] 0).phase = .run ∧ fetch (running [.jump 0 0] 0 [] 0) = some (.jump 0 0) ∧
    (running [.jump 0 0] 0 [] 0).var 0 = 0#8 := by decide

theorem witness_UnsignedLongJumpEndsTheRun :
    (otherParams (running [.jump 0 1] 0 [(1, 200#8)] 2)).Inv ∧
    (otherParams (running [.jump 0 1] 0 [(1, 200#8)] 2)).phase = .run ∧
    (otherParams (running [.jump 0 1] 0 [(1, 200#8)] 2)).params.offsetSigned = false ∧
    (otherParams (running [.jump 0 1] 0 [(1, 200#8)] 2)).params.width ≤ 387 ∧
    fetch (otherParams (running [.jump 0 1] 0 [(1, 200#8)] 2)) = some (.jump 0 1) ∧
    (otherParams (running [.jump 0 1] 0 [(1, 200#8)] 2)).var 0 = 0#8 ∧
    128 ≤ ((otherParams (running [.jump 0 1] 0 [(1, 200#8)] 2)).var 1).toNat := by
  have h := witness_inv_running
  refine ⟨⟨h.1, h.2, h.3, ?_, h.5, h.6, h.7, h.8, h.9, h.10, h.11, h.12, h.13, h.14, h.15⟩, ?_⟩ <;> decide

theorem witness_InputStoresTheNextCharacter :
    (withInput [0x20#8, 0x41#8] 0 false State.reset).inLeft = [0x20#8] ++ 0x41#8 :: [] ∧
    (∀ b ∈ [0x20#8], isWs State.reset.params b = true) ∧ isWs State.reset.params 0x41#8 = false := by decide

/-- Both clauses: each EOF_POLICY. -/
theorem witness_InputAtEndOfInput :
    (withInput [0x20#8] 0 true State.reset).inPos ≤ (withInput [0x20#8] 0 true State.reset).inBytes.length ∧
    (∀ b ∈ (withInput [0x20#8] 0 true State.reset).inLeft, isWs State.reset.params b = true) ∧
    (withInput [0x20#8] 0 true State.reset).inClosed = true ∧
    (withInput [0x20#8] 0 true State.reset).params.eofPolicy = .unchanged ∧
    (otherParams (withInput [0x20#8] 0 true State.reset)).params.eofPolicy = .zero ∧
    (otherParams (withInput [0x20#8] 0 true State.reset)).inClosed = true ∧
    (∀ b ∈ (otherParams (withInput [0x20#8] 0 true State.reset)).inLeft,
      isWs (otherParams (withInput [0x20#8] 0 true State.reset)).params b = true) := by decide

theorem witness_InputHoldsOnAnOpenStream :
    (withInput [0x20#8] 0 false State.reset).inPos ≤ (withInput [0x20#8] 0 false State.reset).inBytes.length ∧
    (∀ b ∈ (withInput [0x20#8] 0 false State.reset).inLeft, isWs State.reset.params b = true) ∧
    (withInput [0x20#8] 0 false State.reset).inClosed = false := by decide

/-- With the hypotheses of the hold (above): the hold, and both kinds of move after it and instead of it. -/
theorem witness_HeldInputResumesAsIfNotHeld :
    ∃ s1 s2 s3 s4 s5, exec (.input 0) (withInput [0x20#8] 0 false State.reset) = .next s1 ∧
      hostMove (.append 0x41#8) s1 = .next s2 ∧ hostMove (.append 0x41#8) (withInput [0x20#8] 0 false State.reset) = .next s3 ∧
      hostMove .close s1 = .next s4 ∧ hostMove .close (withInput [0x20#8] 0 false State.reset) = .next s5 :=
  ⟨_, _, _, _, _, rfl, rfl, rfl, rfl, rfl⟩

theorem witness_WhitespaceSetContents : Params.wf { recommendedParams with ws := [0x20#8, 0x09#8, 0x0A#8] } = true := by decide

theorem witness_FrameOfPrintAndJump :
    ∃ t u v, exec (.print 1) (running [] 0 [(1, 200#8)] 2) = .next t ∧
      exec (.jump 0 1) (running [] 0 [(1, 200#8)] 2) = .next u ∧ exec (.jump 1 0) (running [] 0 [(1, 200#8)] 2) = .next v :=
  ⟨_, _, _, rfl, rfl, rfl⟩

theorem witness_FrameOfIncAndDec :
    ∃ t u, exec (.inc 1) (running [] 0 [(1, 255#8)] 2) = .next t ∧ exec (.dec 0) (running [] 0 [(1, 255#8)] 2) = .next u :=
  ⟨_, _, rfl, rfl⟩

/-- A byte, the end of input, a hold. -/
theorem witness_FrameOfInput :
    ∃ t u v, exec (.input 1) (withInput [0x41#8] 0 false State.reset) = .next t ∧
      exec (.input 1) (withInput [] 0 true State.reset) = .next u ∧ exec (.input 1) State.reset = .next v :=
  ⟨_, _, _, rfl, rfl, rfl⟩

theorem witness_OnlyThreeInstructionsWriteAVariable :
    ∃ t, step (running [.inc 0] 0 [] 0) = .next t ∧ t.var 0 ≠ (running [.inc 0] 0 [] 0).var 0 := ⟨_, rfl, by decide⟩

theorem witness_StreamsMoveOneWay :
    ∃ t u, step (running [.print 0] 0 [] 0) = .next t ∧ t.out ≠ (running [.print 0] 0 [] 0).out ∧
      step (withInput [0x41#8] 0 false (running [.input 0] 0 [] 0)) = .next u ∧ u.inPos ≠ 0 :=
  ⟨_, _, rfl, by decide, rfl, by decide⟩

/-- One step of each of the table's moves. -/
theorem witness_PhaseMovesAreThoseOfTheTable :
    ∃ t u v, step { launched 1 with work := .node .root } = .next t ∧ t.phase = .run ∧
      step { launched 6 with work := .node .p10 } = .next u ∧ u.phase = .fault ∧
      step (running [] 0 [] 0) = .next v ∧ v.phase = .halted :=
  ⟨_, _, _, rfl, rfl, rfl, rfl, rfl, rfl⟩

theorem witness_MachineIgnoresDecoderState :
    ∃ t, (running [.inc 0] 0 [] 0).phase = .run ∧ step (running [.inc 0] 0 [] 0) = .next t := ⟨_, rfl, rfl⟩

theorem witness_StepKeepsTheInvariant :
    ∃ t, (running [.jump 0 1] 0 [(1, 200#8)] 2).Inv ∧ step (running [.jump 0 1] 0 [(1, 200#8)] 2) = .next t :=
  ⟨_, witness_inv_running, rfl⟩

/-- An append, a close and a reset of the running state above (a launch: `witness_LaunchIsAcceptedFromIdleOnly`). -/
theorem witness_HostMovesKeepTheInvariant :
    ∃ t u v, (running [.jump 0 1] 0 [(1, 200#8)] 2).Inv ∧
      hostMove (.append 0#8) (running [.jump 0 1] 0 [(1, 200#8)] 2) = .next t ∧
      hostMove .close (running [.jump 0 1] 0 [(1, 200#8)] 2) = .next u ∧
      hostMove .reset (running [.jump 0 1] 0 [(1, 200#8)] 2) = .next v :=
  ⟨_, _, _, witness_inv_running, rfl, rfl, rfl⟩

/-- `VALUE = 2` (`1 0`): the search, one bit, the truncation. -/
theorem witness_TruncatedProgramsNeverRun :
    ∃ s, actAll [.host (.launch 2), .core, .core, .core] (State.resetWith recommendedParams) = .next s ∧
      decodeAll s.value = .error .truncatedProgram ∧ s.phase = .fault := ⟨_, rfl, by decide, rfl⟩

theorem witness_LaunchedProgramIsLoaded : programWf recommendedParams.width [.jump 30 29] = true := by decide

/-- The three clauses: `2^64 − 1` fits, `2^64` does not, and a phase other than IDLE. -/
theorem witness_LaunchIsAcceptedFromIdleOnly :
    State.reset.phase = .idle ∧ 2 ^ 64 - 1 < 2 ^ State.reset.params.width ∧ 2 ^ State.reset.params.width ≤ 2 ^ 64 ∧
    (launched 8).phase ≠ .idle := by decide

theorem witness_HostFeedsClosesAndResets :
    State.reset.inClosed = false ∧ (withInput [] 0 true State.reset).inClosed = true := by decide

/-- The search, the first bit, and the last bit of INC(0), which appends it to PROG. -/
theorem witness_DecodingInProgressIsUnobservable :
    ∃ t u v, step (launched 8) = .next t ∧ t.phase = .decode ∧ step t = .next u ∧ u.phase = .decode ∧
      runSteps 4 (launched 24) = .next v ∧ v.phase = .decode := ⟨_, _, _, rfl, rfl, rfl, rfl, rfl, rfl⟩

end Sys2Proof.Tests
end

section
/-! PROOFS. The statements about the state (spec/10_state.md): the reset state, the moves of the Host that feed, close and
reset, what a step can change, canonical stores, the invariant, and that VLEN is hidden. -/

namespace Sys2Proof.Machine

/-! ### Reset, the Host's moves and the phases without a step -/

/-- Settles O57: the fields of `State.reset` are R27's table. -/
theorem resetState : Obligations.ResetState := by
  unfold Obligations.ResetState
  have hvar : ∀ i, State.reset.var i = 0#8 := read_nil
  exact ⟨rfl, hvar, by decide⟩

/-- Settles O59: each move of the Host, by its definition. -/
theorem hostFeedsClosesAndResets : Obligations.HostFeedsClosesAndResets := by
  unfold Obligations.HostFeedsClosesAndResets
  intro b s
  refine ⟨fun hopen => ?_, fun hclosed => ?_, rfl, rfl⟩
  · simp [hostMove, appendInput, hopen]
  · simp [hostMove, appendInput, hclosed]

/-- Settles O27: `coreStep` answers the same state in each of the three phases. -/
theorem outsideDecodeAndRunTheCoreStays : Obligations.OutsideDecodeAndRunTheCoreStays := by
  unfold Obligations.OutsideDecodeAndRunTheCoreStays
  rintro s (h | h | h) <;> simp [step, coreStep, h]

/-! ### What a step that runs no instruction leaves alone -/

/-- The elements that neither the Decoder nor the halt writes are the same in both states (R60, R76). -/
structure SameData (s t : State) : Prop where
  value : t.value = s.value
  pc : t.pc = s.pc
  vars : t.vars = s.vars
  vlen : t.vlen = s.vlen
  inBytes : t.inBytes = s.inBytes
  inPos : t.inPos = s.inPos
  inClosed : t.inClosed = s.inClosed
  out : t.out = s.out
  params : t.params = s.params

theorem SameData.refl (s : State) : SameData s s := by constructor <;> rfl

theorem halt_sameData (s : State) : SameData s (halt s) := by constructor <;> rfl

theorem startDecoding_sameData (s : State) :
    SameData s (sentinelSearch { s with prog := [], work := .node .root }) := by constructor <;> rfl

theorem treeStep_sameData (n : TreeNode) (s : State) : SameData s (treeStep n s) := by
  obtain ⟨-, -, h⟩ | ⟨-, -, h⟩ | ⟨-, b, -, h⟩ := treeStep_cases n s <;> rw [h] <;> constructor <;> rfl

/-- A step changes none of the data, or it runs the instruction fetched. -/
theorem sameData_or_effect_of_step {s t : State} (h : step s = .next t) :
    SameData s t ∨ ∃ i, s.phase = .run ∧ fetch s = some i ∧ Effect i s t := by
  obtain ⟨-, rfl⟩ | ⟨-, -, rfl⟩ | ⟨n, -, -, rfl⟩ | ⟨-, -, rfl⟩ | ⟨i, hrun, hfetch, hexec⟩ := step_cases h
  · exact .inl (.refl t)
  · exact .inl (startDecoding_sameData s)
  · exact .inl (treeStep_sameData n s)
  · exact .inl (halt_sameData s)
  · exact .inr ⟨i, hrun, hfetch, effect_of_exec hexec⟩

/-- Settles O47: only an instruction's effect writes the store, and it writes at the operand of INPUT, INC or DEC. -/
theorem onlyThreeInstructionsWriteAVariable : Obligations.OnlyThreeInstructionsWriteAVariable := by
  unfold Obligations.OnlyThreeInstructionsWriteAVariable
  intro s t j hstep hj
  obtain hsame | ⟨i, hrun, hfetch, he⟩ := sameData_or_effect_of_step hstep
  · exact absurd (var_congr hsame.vars j) hj
  · obtain hvars | ⟨v, b, hvars, -, hi⟩ := he.vars
    · exact absurd (var_congr hvars j) hj
    · have hjv : j = v := by
        by_contra hne
        exact hj (by rw [State.var, hvars, read_write_other _ _ hne, State.var])
      subst hjv
      exact ⟨hrun, by simpa [hfetch] using hi⟩

/-- Settles O48: only an instruction's effect moves a stream, and it is PRINT's or INPUT's. -/
theorem streamsMoveOneWay : Obligations.StreamsMoveOneWay := by
  unfold Obligations.StreamsMoveOneWay
  intro s t hstep
  obtain hsame | ⟨i, hrun, hfetch, he⟩ := sameData_or_effect_of_step hstep
  · exact ⟨hsame.inBytes, hsame.inClosed, .inl hsame.out, hsame.inPos.ge, fun hne => absurd hsame.inPos hne⟩
  · refine ⟨he.inBytes, he.inClosed, ?_, he.inPos, fun hne => ?_⟩
    · obtain hout | ⟨v, rfl, hout⟩ := he.out
      · exact .inl hout
      · exact .inr ⟨v, hrun, hfetch, hout⟩
    · obtain ⟨v, rfl⟩ := he.inPos_input hne
      exact ⟨hrun, v, hfetch⟩

/-- How a step in the tree leaves the phase and the cause, and for what reason they move (R66, R67). -/
theorem treeStep_phase (n : TreeNode) (s : State) :
    ((treeStep n s).phase = s.phase ∧ (treeStep n s).cause = s.cause) ∨
    (n = .root ∧ s.cur < 0 ∧ (treeStep n s).phase = .run ∧ (treeStep n s).prog = s.prog) ∨
    (n ≠ .root ∧ s.cur < 0 ∧ (treeStep n s).phase = .fault ∧ (treeStep n s).prog = []) := by
  obtain ⟨hn, hc, h⟩ | ⟨hn, hc, h⟩ | ⟨-, b, -, h⟩ := treeStep_cases n s <;> rw [h]
  · exact .inr (.inl ⟨hn, hc, rfl, rfl⟩)
  · exact .inr (.inr ⟨hn, hc, rfl, rfl⟩)
  · exact .inl ⟨rfl, rfl⟩

/-- Settles O49: `step_cases`, with `treeStep_phase` for the Decoder's two ends. -/
theorem phaseMovesAreThoseOfTheTable : Obligations.PhaseMovesAreThoseOfTheTable := by
  unfold Obligations.PhaseMovesAreThoseOfTheTable
  intro s t hstep
  obtain ⟨-, rfl⟩ | ⟨hdec, -, rfl⟩ | ⟨n, hdec, hwork, rfl⟩ | ⟨hrun, hfetch, rfl⟩ | ⟨i, -, -, hexec⟩ := step_cases hstep
  · exact ⟨.inl rfl, rfl, rfl, fun _ => ⟨rfl, rfl, rfl⟩⟩
  · exact ⟨.inl rfl, rfl, rfl, fun hne => absurd hdec hne⟩
  · have hsame := treeStep_sameData n s
    refine ⟨?_, hsame.value, hsame.params, fun hne => absurd hdec hne⟩
    obtain ⟨hphase, -⟩ | ⟨rfl, hc, hphase, hprog⟩ | ⟨hn, hc, hphase, hprog⟩ := treeStep_phase n s
    · exact .inl hphase
    · exact .inr (.inl ⟨hdec, hphase, hwork, hc, hprog⟩)
    · exact .inr (.inr (.inl ⟨hdec, hphase, by simpa [hwork] using hn, hc, hprog⟩))
  · exact ⟨.inr (.inr (.inr ⟨hrun, rfl, (fetch_eq_none_iff s).mp hfetch⟩)), rfl, rfl, fun _ => ⟨rfl, rfl, rfl⟩⟩
  · have he := effect_of_exec hexec
    exact ⟨.inl he.phase, he.value, he.params, fun _ => ⟨he.prog, he.cur, he.work⟩⟩

/-- Settles O60: in DECODE the view shows CAUSE, INPOS and OUT only, and no step that stays in DECODE moves one of them. -/
theorem decodingInProgressIsUnobservable : Obligations.DecodingInProgressIsUnobservable := by
  unfold Obligations.DecodingInProgressIsUnobservable
  intro s t hdec hstep htdec
  have hcause : t.cause = s.cause := by
    obtain ⟨-, rfl⟩ | ⟨-, -, rfl⟩ | ⟨n, -, -, rfl⟩ | ⟨hrun, -, -⟩ | ⟨i, hrun, -, -⟩ := step_cases hstep
    · rfl
    · rfl
    · obtain ⟨-, hcause⟩ | ⟨-, -, hphase, -⟩ | ⟨-, -, hphase, -⟩ := treeStep_phase n s
      · exact hcause
      · simp [hphase] at htdec
      · simp [hphase] at htdec
    · simp [hdec] at hrun
    · simp [hdec] at hrun
  obtain hsame | ⟨i, hrun, -, -⟩ := sameData_or_effect_of_step hstep
  · rw [hostView_of_decode htdec, hostView_of_decode hdec, hcause, hsame.inPos, hsame.out]
  · simp [hdec] at hrun

/-! ### Canonical stores -/

/-- In a store whose indices rise, a listed cell is what its index reads as. -/
theorem read_of_mem {m : Memory} (hm : m.Pairwise (fun c d => c.1 < d.1)) {c : Host.Cell} (hc : c ∈ m) :
    m.read c.1 = c.2 := by
  induction m with
  | nil => simp at hc
  | cons d m ih =>
    obtain ⟨hd, hm⟩ := List.pairwise_cons.mp hm
    obtain rfl | hc := List.mem_cons.mp hc
    · simp
    · rw [read_cons, if_neg (hd c hc).ne', ih hm hc]

/-- A canonical store lists exactly the cells whose index reads as a byte other than the unlisted one (log 16). -/
theorem mem_iff_read {m : Memory} (hm : m.wf) (c : Host.Cell) : c ∈ m ↔ m.read c.1 = c.2 ∧ c.2 ≠ 0#8 := by
  refine ⟨fun hc => ⟨read_of_mem hm.1 hc, hm.2 c hc⟩, fun ⟨hread, hne⟩ => ?_⟩
  obtain ⟨d, hd, hdc⟩ := listed_of_read (hread ▸ hne)
  have hcd : c = d := Prod.ext hdc.symm (by rw [← hread, ← hdc, read_of_mem hm.1 hd])
  exact hcd ▸ hd

/-- Settles O23: stores that read the same list the same cells, and the order of the cells is fixed. -/
theorem canonicalStoresAreEqualData : Obligations.CanonicalStoresAreEqualData := by
  unfold Obligations.CanonicalStoresAreEqualData
  intro m m' hm hm' hread
  have hirrefl : Std.Irrefl (fun c d : Host.Cell => c.1 < d.1) := ⟨fun c => lt_irrefl c.1⟩
  have hasymm : Std.Asymm (fun c d : Host.Cell => c.1 < d.1) := ⟨fun c d => lt_asymm⟩
  exact hm.1.eq_of_mem_iff hm'.1 fun c => by rw [mem_iff_read hm, mem_iff_read hm', hread]

/-! ### The invariant holds at reset -/

/-- Settles O52: every conjunct of the invariant, read off the reset values; the cursor is at −1 (log 11). -/
theorem resetMeetsTheInvariant : Obligations.ResetMeetsTheInvariant := by
  unfold Obligations.ResetMeetsTheInvariant
  have hreset : ∀ p : Params, (State.resetWith p).Inv := fun p =>
    { vars_wf := wf_nil
      vars_below := fun i _ => read_nil i
      inPos_le := le_rfl
      value_lt := Nat.two_pow_pos _
      cur_ge := le_rfl
      cur_le := le_max_left _ _
      cause_iff := by simp [State.resetWith]
      idle := fun _ => ⟨rfl, rfl⟩
      decoding := by simp [State.resetWith]
      rest := fun _ => ⟨rfl, rfl⟩
      decoded := by simp [State.resetWith]
      faulted := by simp [State.resetWith]
      unstarted := fun _ => ⟨rfl, rfl, rfl, rfl, rfl⟩
      pc_range := by simp [State.resetWith, instrCount]
      halted := by simp [State.resetWith] }
  exact ⟨hreset, hreset recommendedParams⟩

/-! ### What the Decoder has still to append -/

/-- With no bit left the Decoder appends nothing more: PROG is the result at a boundary, elsewhere the fault is (R66, R67). -/
theorem decodeResult_of_exhausted {s : State} (h : s.cur < 0) (n : TreeNode) :
    s.decodeResult n = if n = .root then .ok s.prog else .error .truncatedProgram := by
  rw [State.decodeResult, bitsLeft_nil h, decodeFrom]
  by_cases hn : n = .root <;> simp [hn]

/-- Taking one edge of the tree leaves the result as it was (R50). -/
theorem decodeResult_feed {s t : State} {n : TreeNode} {b : Bool} (hbits : s.bitsLeft = b :: t.bitsLeft)
    (hprog : t.prog = s.prog ++ (feed n b).2.toList) : t.decodeResult (feed n b).1 = s.decodeResult n := by
  simp only [State.decodeResult, hbits, hprog, decodeFrom]
  cases decodeFrom (feed n b).1 t.bitsLeft <;> simp

/-- After the sentinel search the result is that of the whole decoding (R61, R66). -/
theorem decodeResult_sentinelSearch {s : State} (h : s.prog = []) :
    (sentinelSearch s).decodeResult .root = decodeAll s.value := by
  rw [State.decodeResult, bitsLeft_sentinel, decodeFrom_root, decodeAll, sentinelSearch_prog, h]
  cases decodeBits (programBits s.value) <;> rfl

/-- The search leaves the cursor exhausted or below the sentinel (R11, log 11). -/
theorem sentinelCur_range (v : Nat) : -1 ≤ sentinelCur v ∧ sentinelCur v ≤ max (-1) ((blen v : Int) - 2) := by
  by_cases hv : v = 0
  · simp [sentinelCur, hv]
  · have := blen_pos hv
    simp only [sentinelCur, hv, if_false]
    omega

/-! ### Every step keeps the invariant -/

/-- CAUSE is `none` wherever PHASE is not FAULT (R24). -/
theorem State.Inv.cause_none {s : State} (h : s.Inv) (hp : s.phase ≠ .fault) : s.cause ≠ .truncatedProgram :=
  fun hc => hp (h.cause_iff.mp hc)

/-- An exhausted cursor is at −1 (R11). -/
theorem State.Inv.cur_eq_of_exhausted {s : State} (h : s.Inv) (hc : s.cur < 0) : s.cur = -1 := by
  have := h.cur_ge
  omega

/-- In DECODE nothing has executed, so pc, still 0, is in range whatever PROG becomes. -/
theorem State.Inv.pc_range_of_decode {s : State} (h : s.Inv) (hdec : s.phase = .decode) (p : List Instr) :
    -128 ≤ s.pc ∧ s.pc ≤ (p.length : Int) + 254 := by
  obtain ⟨hpc, -⟩ := h.unstarted (.inr (.inl hdec))
  omega

theorem startDecoding_keeps_inv {s : State} (h : s.Inv) (hdec : s.phase = .decode) :
    (sentinelSearch { s with prog := [], work := .node .root }).Inv :=
  { h with
    cur_ge := (sentinelCur_range s.value).1
    cur_le := (sentinelCur_range s.value).2
    idle := by simp [hdec]
    decoding := fun _ n hn => by
      cases hn
      exact decodeResult_sentinelSearch rfl
    rest := fun hne => absurd hdec hne
    decoded := by simp [hdec]
    faulted := by simp [hdec]
    pc_range := h.pc_range_of_decode hdec []
    halted := by simp [hdec] }

/-- The clean end: PROG is the whole program (R66). -/
theorem cleanEnd_keeps_inv {s : State} (h : s.Inv) (hdec : s.phase = .decode) (hwork : s.work = .node .root)
    (hc : s.cur < 0) : ({ s with phase := .run } : State).Inv :=
  { h with
    cause_iff := by simp [h.cause_none, hdec]
    idle := by simp
    decoding := by simp
    rest := fun _ => ⟨h.cur_eq_of_exhausted hc, hwork⟩
    decoded := fun _ => by
      rw [← h.decoding hdec .root hwork, decodeResult_of_exhausted hc, if_pos rfl]
    faulted := by simp
    unstarted := by simp
    halted := by simp }

/-- The truncation: PROG is emptied, and VALUE is truncated (R67). -/
theorem raiseTruncated_keeps_inv {s : State} {n : TreeNode} (h : s.Inv) (hdec : s.phase = .decode)
    (hwork : s.work = .node n) (hn : n ≠ .root) (hc : s.cur < 0) : (raiseTruncated s).Inv :=
  { h with
    cause_iff := by simp
    idle := by simp
    decoding := by simp
    rest := fun _ => ⟨h.cur_eq_of_exhausted hc, rfl⟩
    decoded := by simp
    faulted := fun _ => ⟨by
      rw [raiseTruncated_value, ← h.decoding hdec n hwork, decodeResult_of_exhausted hc, if_neg hn], rfl⟩
    unstarted := fun _ => h.unstarted (.inr (.inl hdec))
    pc_range := h.pc_range_of_decode hdec []
    halted := by simp }

/-- One bit: what PROG and the bits left give together does not change (R50). -/
theorem bit_keeps_inv {s : State} {n : TreeNode} {b : Bool} (h : s.Inv) (hdec : s.phase = .decode)
    (hwork : s.work = .node n) (hc : 0 ≤ s.cur)
    (hbits : s.bitsLeft = b :: ({ s with cur := s.cur - 1 } : State).bitsLeft) :
    ({ s with cur := s.cur - 1, work := .node (feed n b).1, prog := s.prog ++ (feed n b).2.toList } : State).Inv :=
  { h with
    cur_ge := by simp only; omega
    cur_le := by have := h.cur_le; simp only; omega
    idle := by simp [hdec]
    decoding := fun _ n' hn' => by
      cases hn'
      rw [← h.decoding hdec n hwork]
      exact decodeResult_feed hbits rfl
    rest := fun hne => absurd hdec hne
    decoded := by simp [hdec]
    faulted := by simp [hdec]
    pc_range := h.pc_range_of_decode hdec _
    halted := by simp [hdec] }

theorem treeStep_keeps_inv {s : State} {n : TreeNode} (h : s.Inv) (hdec : s.phase = .decode)
    (hwork : s.work = .node n) : (treeStep n s).Inv := by
  obtain ⟨rfl, hc, ht⟩ | ⟨hn, hc, ht⟩ | ⟨hc, b, hbits, ht⟩ := treeStep_cases n s <;> rw [ht]
  · exact cleanEnd_keeps_inv h hdec hwork hc
  · exact raiseTruncated_keeps_inv h hdec hwork hn hc
  · exact bit_keeps_inv h hdec hwork hc hbits

theorem halt_keeps_inv {s : State} (h : s.Inv) (hrun : s.phase = .run) (hfetch : fetch s = none) : (halt s).Inv :=
  { h with
    cause_iff := by simp [h.cause_none, hrun]
    idle := by simp
    decoding := by simp
    rest := fun _ => h.rest (by simp [hrun])
    decoded := fun _ => h.decoded (.inl hrun)
    faulted := by simp
    unstarted := by simp
    halted := fun _ => (fetch_eq_none_iff s).mp hfetch }

/-- An instruction's effect keeps 0 beyond VLEN: a write grows the store to cover the index written (R20, R80). -/
theorem Effect.vars_below {i : Instr} {s t : State} (he : Effect i s t) (h : ∀ j, s.vlen ≤ j → s.var j = 0#8)
    {j : Nat} (hj : t.vlen ≤ j) : t.var j = 0#8 := by
  have hs : s.var j = 0#8 := h j (he.vlen.trans hj)
  obtain hvars | ⟨v, b, hvars, hv, -⟩ := he.vars
  · rw [var_congr hvars, hs]
  · rw [State.var, hvars, read_write_other _ _ (by omega)]
    exact hs

theorem Effect.vars_wf {i : Instr} {s t : State} (he : Effect i s t) (h : s.vars.wf) : t.vars.wf := by
  obtain hvars | ⟨v, b, hvars, -⟩ := he.vars <;> rw [hvars]
  · exact h
  · exact write_wf h v b

/-- An instruction is fetched at a pc in `0 .. N − 1`, and moves it by −128 .. 255 (R15). -/
theorem Effect.pc_range {i : Instr} {s t : State} (he : Effect i s t) (hfetch : fetch s = some i) :
    -128 ≤ t.pc ∧ t.pc ≤ (instrCount t : Int) + 254 := by
  have hN : instrCount t = instrCount s := congrArg List.length he.prog
  have hpc : ¬ (s.pc < 0 ∨ (instrCount s : Int) ≤ s.pc) := by simp [← fetch_eq_none_iff, hfetch]
  obtain ⟨hlo, hhi⟩ := he.pc
  omega

theorem Effect.keeps_inv {i : Instr} {s t : State} (he : Effect i s t) (h : s.Inv) (hrun : s.phase = .run)
    (hfetch : fetch s = some i) : t.Inv := by
  have htrun : t.phase = .run := he.phase.trans hrun
  exact
    { vars_wf := he.vars_wf h.vars_wf
      vars_below := fun _ hj => he.vars_below h.vars_below hj
      inPos_le := he.inBytes ▸ he.inPos_le h.inPos_le
      value_lt := by rw [he.value, he.params]; exact h.value_lt
      cur_ge := he.cur ▸ h.cur_ge
      cur_le := by rw [he.cur, he.value]; exact h.cur_le
      cause_iff := by rw [he.cause, he.phase]; exact h.cause_iff
      idle := by simp [htrun]
      decoding := by simp [htrun]
      rest := fun _ => by rw [he.cur, he.work]; exact h.rest (by simp [hrun])
      decoded := fun _ => by rw [he.value, he.prog]; exact h.decoded (.inl hrun)
      faulted := by simp [htrun]
      unstarted := by simp [htrun]
      pc_range := he.pc_range hfetch
      halted := by simp [htrun] }

/-- Settles O53, by the cases of a step: the Decoder's three moves keep what PROG and the bits left give together, and an
instruction's effect keeps the rest. -/
theorem stepKeepsTheInvariant : Obligations.StepKeepsTheInvariant := by
  unfold Obligations.StepKeepsTheInvariant
  intro s t h hstep
  obtain ⟨-, rfl⟩ | ⟨hdec, -, rfl⟩ | ⟨n, hdec, hwork, rfl⟩ | ⟨hrun, hfetch, rfl⟩ | ⟨i, hrun, hfetch, hexec⟩ := step_cases hstep
  · exact h
  · exact startDecoding_keeps_inv h hdec
  · exact treeStep_keeps_inv h hdec hwork
  · exact halt_keeps_inv h hrun hfetch
  · exact (effect_of_exec hexec).keeps_inv h hrun hfetch

/-! ### A step in the tree and a JUMP, an equation per branch -/

/-- The clean end, as an equation (R66). -/
theorem treeStep_end {s : State} (hc : s.cur < 0) : treeStep .root s = { s with phase := .run } := by
  simp [treeStep, hc]

/-- The truncation, as an equation (R67). -/
theorem treeStep_truncated {n : TreeNode} {s : State} (hn : n ≠ .root) (hc : s.cur < 0) :
    treeStep n s = raiseTruncated s := by
  simp [treeStep, nextBit, hn, hc]

/-- One bit, as an equation (R50, R62). -/
theorem treeStep_bit {n : TreeNode} {s : State} (hc : ¬ s.cur < 0) :
    treeStep n s =
      { s with
        cur := s.cur - 1
        work := .node (feed n (s.value.testBit s.cur.toNat)).1
        prog := s.prog ++ (feed n (s.value.testBit s.cur.toNat)).2.toList } := by
  simp [treeStep, nextBit, hc]

/-- A taken JUMP moves pc by the offset and references both variables (R95). -/
theorem exec_jump_taken {s : State} {c o : Nat} (h : jumpTaken (s.var c) = true) :
    exec (.jump c o) s = .next (setPc (s.pc + offset s.params.offsetSigned (s.var o)) (grow o (grow c s))) := by
  simp [exec, execJump, h]

/-- A JUMP not taken goes on to the next instruction and references its condition variable only (R95, D21). -/
theorem exec_jump_not_taken {s : State} {c o : Nat} (h : jumpTaken (s.var c) = false) :
    exec (.jump c o) s = .next (advance (grow c s)) := by
  simp [exec, execJump, h]

/-! ### VLEN is hidden -/

/-- The state with another VLEN. -/
def State.withVlen (s : State) (n : Nat) : State :=
  { s with vlen := n }

@[simp] theorem withVlen_work (s : State) (n : Nat) : (s.withVlen n).work = s.work := rfl
@[simp] theorem withVlen_prog (s : State) (n : Nat) : (s.withVlen n).prog = s.prog := rfl
@[simp] theorem withVlen_vars (s : State) (n : Nat) : (s.withVlen n).vars = s.vars := rfl
@[simp] theorem withVlen_phase (s : State) (n : Nat) : (s.withVlen n).phase = s.phase := rfl
@[simp] theorem withVlen_params (s : State) (n : Nat) : (s.withVlen n).params = s.params := rfl
@[simp] theorem withVlen_inLeft (s : State) (n : Nat) : (s.withVlen n).inLeft = s.inLeft := rfl
@[simp] theorem withVlen_fetch (s : State) (n : Nat) : fetch (s.withVlen n) = fetch s := rfl
@[simp] theorem withVlen_hostView (s : State) (n : Nat) : (s.withVlen n).hostView = s.hostView := rfl

/-- The Decoder reads no VLEN, and leaves it alone. -/
theorem treeStep_withVlen (k : TreeNode) (s : State) (n : Nat) : treeStep k (s.withVlen n) = (treeStep k s).withVlen n := by
  by_cases hc : s.cur < 0
  · by_cases hk : k = .root
    · subst hk
      rw [treeStep_end hc, treeStep_end (s := s.withVlen n) hc]
      rfl
    · rw [treeStep_truncated hk hc, treeStep_truncated (s := s.withVlen n) hk hc]
      rfl
  · rw [treeStep_bit hc, treeStep_bit (s := s.withVlen n) hc]
    rfl

theorem decodeStep_withVlen (s : State) (n : Nat) : decodeStep (s.withVlen n) = (decodeStep s).withVlen n := by
  rw [decodeStep, decodeStep, withVlen_work]
  cases s.work with
  | search => rfl
  | node k => exact treeStep_withVlen k s n

theorem nextChar_withVlen (s : State) (n : Nat) :
    nextChar (s.withVlen n) = ((nextChar s).1, (nextChar s).2.withVlen n) := by
  rw [nextChar_eq, nextChar_eq, withVlen_inLeft, withVlen_params]
  split <;> rfl

theorem endOfInput_withVlen (v : Nat) (s : State) (n : Nat) :
    ∃ m, endOfInput v (s.withVlen n) = (endOfInput v s).withVlen m := by
  rw [endOfInput, endOfInput, withVlen_params]
  cases s.params.eofPolicy <;> exact ⟨max n (v + 1), rfl⟩

/-- An instruction reads no VLEN: from states that differ only in it, it leads to states that differ only in it (R20, R39). -/
theorem exec_withVlen (i : Instr) (s : State) (n : Nat) :
    ∃ t m, exec i s = .next t ∧ exec i (s.withVlen n) = .next (t.withVlen m) := by
  cases i with
  | print v => exact ⟨_, max n (v + 1), rfl, rfl⟩
  | inc v => exact ⟨_, max (max n (v + 1)) (v + 1), rfl, rfl⟩
  | dec v => exact ⟨_, max (max n (v + 1)) (v + 1), rfl, rfl⟩
  | jump c o =>
    cases hx : jumpTaken (s.var c) with
    | true =>
      exact ⟨_, max (max n (c + 1)) (o + 1), exec_jump_taken hx, exec_jump_taken (s := s.withVlen n) hx⟩
    | false => exact ⟨_, max n (c + 1), exec_jump_not_taken hx, exec_jump_not_taken (s := s.withVlen n) hx⟩
  | input v =>
    simp only [exec, execInput, nextChar_withVlen]
    obtain ⟨r, s1⟩ := nextChar s
    cases r with
    | byte c => exact ⟨_, max n (v + 1), rfl, rfl⟩
    | eof =>
      obtain ⟨m, hm⟩ := endOfInput_withVlen v s1 n
      exact ⟨_, m, rfl, by simp only [hm]; rfl⟩
    | hold => exact ⟨_, n, rfl, rfl⟩

/-- A step from states that differ only in VLEN leads to states that differ only in VLEN. -/
theorem step_withVlen (s : State) (n : Nat) :
    ∃ t m, step s = .next t ∧ step (s.withVlen n) = .next (t.withVlen m) := by
  simp only [step, coreStep, withVlen_phase]
  cases s.phase with
  | idle => exact ⟨s, n, rfl, rfl⟩
  | halted => exact ⟨s, n, rfl, rfl⟩
  | fault => exact ⟨s, n, rfl, rfl⟩
  | decode => exact ⟨_, n, rfl, congrArg _ (decodeStep_withVlen s n)⟩
  | run =>
    simp only [machineStep, withVlen_fetch]
    cases fetch s with
    | none => exact ⟨halt s, n, rfl, rfl⟩
    | some i => exact exec_withVlen i s n

theorem runSteps_withVlen (k : Nat) (s : State) (n : Nat) :
    ∃ t m, runSteps k s = .next t ∧ runSteps k (s.withVlen n) = .next (t.withVlen m) := by
  induction k generalizing s n with
  | zero => exact ⟨s, n, rfl, rfl⟩
  | succ k ih =>
    obtain ⟨t, m, hs, hs'⟩ := step_withVlen s n
    simpa only [runSteps, hs, hs'] using ih t m

/-- Settles O50: runs from states that differ only in VLEN stay so (`runSteps_withVlen`), and nothing compared shows it. -/
theorem vlenIsUnobservable : Obligations.VlenIsUnobservable := by
  unfold Obligations.VlenIsUnobservable
  intro k n s
  obtain ⟨t, m, hrun, hrun'⟩ := runSteps_withVlen k s n
  exact ⟨t, t.withVlen m, hrun, hrun', withVlen_hostView t m, withVlen_prog t m, var_congr (withVlen_vars t m)⟩

end Sys2Proof.Machine
end

section
/-! PROOFS. The statements about the encoding (spec/30_encoding.md): the prefix code and the bits of an instruction, the round
trip between a program and its integer, what a port of `w` bits can carry, and a table word placed for the fetch. -/

namespace Sys2Proof

/-! ### The prefix code and the bits of an instruction -/

/-- Settles O1: the table row by row, its truncations, and the operands read back from their unary codes. -/
theorem prefixCodeTable : Obligations.PrefixCodeTable := by
  unfold Obligations.PrefixCodeTable
  refine ⟨fun rest => ⟨rfl, rfl, rfl, rfl, rfl⟩, fun b => ?_, rfl, rfl, fun a b rest => ?_⟩
  · cases b <;> rfl
  · have hone : ∀ build, readOne build (unary a ++ rest) = .ok (build a, rest) := fun build =>
      readOne_ok_iff.mpr ⟨a, rfl, rfl⟩
    have hjump : readOperands .jump (unary a ++ unary b ++ rest) = .ok (.jump a b, rest) := by
      rw [List.append_assoc, readOperands, readIndex_unary]
      exact readOne_ok_iff.mpr ⟨b, rfl, rfl⟩
    exact ⟨hone .print, hone .input, hone .inc, hone .dec, .jump a b, hjump⟩

/-- Settles O3: the bits by definition, their number by `length_encode`. -/
theorem instructionBitLayout : Obligations.InstructionBitLayout := by
  unfold Obligations.InstructionBitLayout
  refine ⟨fun a b => ⟨rfl, rfl, rfl, rfl, rfl, rfl, ?_⟩, fun i => ⟨length_encode i, three_le_bitLength i⟩⟩
  exact ⟨length_encode _, length_encode _, length_encode _, length_encode _, length_encode _⟩

/-- Settles O4: two bits select an opcode, or they are `1,0` and the third one does (R47, R53). -/
theorem everyStreamSelectsAnOpcode : Obligations.EveryStreamSelectsAnOpcode := by
  unfold Obligations.EveryStreamSelectsAnOpcode
  intro bits hlen
  match bits, hlen with
  | false :: false :: rest, _ => exact ⟨.print, rest, rfl⟩
  | false :: true :: rest, _ => exact ⟨.input, rest, rfl⟩
  | true :: true :: rest, _ => exact ⟨.jump, rest, rfl⟩
  | true :: false :: false :: rest, _ => exact ⟨.inc, rest, rfl⟩
  | true :: false :: true :: rest, _ => exact ⟨.dec, rest, rfl⟩

/-- Settles O6: the common stream decodes to both instructions, each with its own rest (`roundTrip`). -/
theorem encodingsArePrefixFree : Obligations.EncodingsArePrefixFree := by
  unfold Obligations.EncodingsArePrefixFree
  intro i j r r' hbits
  have hboth : Except.ok (i, r) = (Except.ok (j, r') : Except DecodeError (Instr × List Bool)) := by
    rw [← roundTrip i r, hbits, roundTrip j r']
  simpa using hboth

/-! ### A program and its integer -/

/-- A valid VALUE is one whose bits after the sentinel are those of the program (R45, R56). -/
theorem decodeAll_ok_iff {v : Nat} {p : List Instr} : decodeAll v = .ok p ↔ programBits v = p.flatMap encode :=
  decodeBits_ok_iff

@[simp] theorem programBits_encodeProgram (p : List Instr) : programBits (encodeProgram p) = p.flatMap encode :=
  programBits_appendBits _

theorem encodeProgram_eq_of_decodeAll {v : Nat} {p : List Instr} (hv : v ≠ 0) (h : decodeAll v = .ok p) :
    encodeProgram p = v := by
  rw [encodeProgram, ← decodeAll_ok_iff.mp h, appendBits_programBits hv]

/-- Settles O7: the bits after the sentinel of a program's integer are the program's. -/
theorem programDecodesFromItsImage : Obligations.ProgramDecodesFromItsImage := by
  unfold Obligations.ProgramDecodesFromItsImage
  exact ⟨fun p => decodeAll_ok_iff.mpr (programBits_encodeProgram p), rfl⟩

/-- Settles O8: a VALUE other than 0 is the sentinel followed by the bits it was decoded from. -/
theorem valueIsTheImageOfItsDecoding : Obligations.ValueIsTheImageOfItsDecoding := by
  unfold Obligations.ValueIsTheImageOfItsDecoding
  exact ⟨fun v p hv h => encodeProgram_eq_of_decodeAll (by omega) h, rfl⟩

/-! ### The last bit of a program -/

/-- An instruction's last bit is the 0 that ends its last operand (R51, R54). -/
theorem encode_eq_append_false (i : Instr) : ∃ bits, encode i = bits ++ [false] := by
  cases i with
  | print a => exact ⟨[false, false] ++ List.replicate a true, by simp [encode, unary]⟩
  | input a => exact ⟨[false, true] ++ List.replicate a true, by simp [encode, unary]⟩
  | jump a b => exact ⟨[true, true] ++ unary a ++ List.replicate b true, by simp [encode, unary]⟩
  | inc a => exact ⟨[true, false, false] ++ List.replicate a true, by simp [encode, unary]⟩
  | dec a => exact ⟨[true, false, true] ++ List.replicate a true, by simp [encode, unary]⟩

theorem appendBits_append_false (acc : Nat) (bits : List Bool) :
    appendBits acc (bits ++ [false]) = 2 * appendBits acc bits := by
  simp [appendBits, List.foldl_append]

/-- A non-empty program has bit 0 equal to 0 (R54). -/
theorem encodeProgram_even {p : List Instr} (hp : p ≠ []) : encodeProgram p % 2 = 0 := by
  obtain ⟨q, i, rfl⟩ : ∃ q i, p = q ++ [i] := (List.eq_nil_or_concat' p).resolve_left hp
  obtain ⟨bits, hbits⟩ := encode_eq_append_false i
  have hlast : (q ++ [i]).flatMap encode = (q.flatMap encode ++ bits) ++ [false] := by simp [hbits]
  rw [encodeProgram, hlast, appendBits_append_false, Nat.mul_mod_right]

/-- Settles O9: were it valid, the value would be the integer of its decoding, which is 1 or even. -/
theorem oddValuesAreTruncated : Obligations.OddValuesAreTruncated := by
  unfold Obligations.OddValuesAreTruncated
  intro v hodd hv
  cases h : decodeAll v with
  | error e => rw [error_eq e]
  | ok p =>
    have himage := encodeProgram_eq_of_decodeAll (by omega) h
    by_cases hp : p = []
    · have hone : encodeProgram [] = 1 := rfl
      rw [hp] at himage
      omega
    · have heven := encodeProgram_even hp
      omega

/-! ### What a port of `w` bits can carry -/

theorem programBitLength_of_decodeAll {v : Nat} {p : List Instr} (h : decodeAll v = .ok p) :
    programBitLength p = blen v - 1 := by
  rw [← length_flatMap_encode, ← decodeAll_ok_iff.mp h, length_programBits]

/-- The integer of a program has the sentinel's bit and the program's (R45, R52). -/
theorem blen_encodeProgram (p : List Instr) : blen (encodeProgram p) = programBitLength p + 1 := by
  have hne : encodeProgram p ≠ 0 := by
    rw [encodeProgram, appendBits_eq]
    positivity
  have hlen := length_programBits (encodeProgram p)
  rw [programBits_encodeProgram, length_flatMap_encode, blen_pos hne] at hlen
  rw [blen_pos hne]
  omega

theorem three_mul_length_le_programBitLength (p : List Instr) : 3 * p.length ≤ programBitLength p := by
  have hsum := List.card_nsmul_le_sum (p.map Instr.bitLength) 3 (by simpa using fun i _ => three_le_bitLength i)
  simpa [programBitLength, Nat.mul_comm] using hsum

theorem bitLength_le_programBitLength {i : Instr} {p : List Instr} (hi : i ∈ p) : i.bitLength ≤ programBitLength p :=
  List.le_sum_of_mem (List.mem_map_of_mem hi)

/-- An operand `a` takes `a + 1` bits beside a prefix of at least two (R48, R51). -/
theorem add_three_le_bitLength_of_mem_operands {i : Instr} {a : Nat} (ha : a ∈ i.operands) : a + 3 ≤ i.bitLength := by
  cases i with
  | jump c o =>
    simp only [Instr.operands, List.mem_cons, List.not_mem_nil, or_false] at ha
    simp only [Instr.bitLength]
    omega
  | print v | input v | inc v | dec v =>
    obtain rfl := List.mem_singleton.mp ha
    simp [Instr.bitLength]

/-- Settles O11: a valid VALUE below `2^w` leaves at most `w − 1` bits for its instructions, and each bound is one on these. -/
theorem portWidthBoundsPrograms : Obligations.PortWidthBoundsPrograms := by
  unfold Obligations.PortWidthBoundsPrograms
  refine ⟨fun w v p hv h => ?_, fun w p => by simp [blen_encodeProgram, programWf]⟩
  have hbits : programBitLength p ≤ w - 1 := by
    have hw := blen_le_iff.mpr hv
    rw [programBitLength_of_decodeAll h]
    omega
  constructor
  · have hcount := three_mul_length_le_programBitLength p
    omega
  · intro i hi
    have hmin := three_le_bitLength i
    have hmax := bitLength_le_programBitLength hi
    refine ⟨?_, fun a ha => ?_⟩
    · rw [Instr.wf, decide_eq_true_iff]
      omega
    · have hoperand := add_three_le_bitLength_of_mem_operands ha
      omega

end Sys2Proof

namespace Sys2Proof.Machine

/-! ### A table word placed for the fetch -/

theorem withFetchWord_eq_loadProgram {nbits w : Nat} {i : Instr} (h : decodeTableWord nbits w = some i) (s : State) :
    s.withFetchWord nbits w = loadProgram [i] s := by
  rw [State.withFetchWord, loadTableWord, h]

/-- In RUN the step is the meaning of the instruction fetched (R75). -/
theorem step_eq_exec {s : State} {i : Instr} (hrun : s.phase = .run) (hfetch : fetch s = some i) : step s = exec i s := by
  simp only [step, coreStep, hrun, machineStep, hfetch]

/-- Settles O25: the word's instruction is loaded alone, with pc at it and PHASE = RUN. -/
theorem fetchWordRunsItsInstruction : Obligations.FetchWordRunsItsInstruction := by
  unfold Obligations.FetchWordRunsItsInstruction
  intro s nbits w i h
  rw [withFetchWord_eq_loadProgram h]
  exact ⟨rfl, rfl, step_eq_exec rfl rfl⟩

end Sys2Proof.Machine
end

section
/-! PROOFS. The statements about the decoder as a function on bits (spec/40_decoder.md R64 to R68): an index, one instruction,
the empty program, and the integers written out in spec/95_test_vectors.md. -/

namespace Sys2Proof

/-! ### An index and one instruction -/

/-- Reading an index succeeds exactly on a unary code (R51, R64). -/
theorem readIndex_ok_iff {bits rest : List Bool} {k : Nat} : readIndex bits = .ok (k, rest) ↔ bits = unary k ++ rest :=
  ⟨eq_unary_of_readIndex, fun h => h ▸ readIndex_unary k rest⟩

/-- Reading an index fails exactly when no zero is left (R64). -/
theorem readIndex_error_iff {bits : List Bool} : readIndex bits = .error .truncatedProgram ↔ ∀ b ∈ bits, b = true := by
  constructor
  · intro h
    obtain ⟨k, rest, rfl⟩ | ⟨k, rfl⟩ := Machine.unary_or_ones bits
    · simp at h
    · exact fun b hb => List.eq_of_mem_replicate hb
  · intro h
    rw [List.eq_replicate_of_mem h]
    exact Machine.readIndex_ones bits.length

/-- Settles O2: a stream is a unary code and a rest, which is read, or only ones, which is a truncation. -/
theorem unaryIndexRead : Obligations.UnaryIndexRead := by
  unfold Obligations.UnaryIndexRead
  refine fun bits => ⟨fun k rest => ?_, readIndex_error_iff⟩
  have hcode : unary k ++ rest = List.replicate k true ++ false :: rest := by simp [unary]
  rw [readIndex_ok_iff, hcode]

/-- Settles O5: what decodes begins with the instruction's bits (`eq_encode_of_decodeOne`), and these decode (`roundTrip`). -/
theorem decodeOneInvertsEncode : Obligations.DecodeOneInvertsEncode := by
  unfold Obligations.DecodeOneInvertsEncode
  exact fun bits i rest => ⟨eq_encode_of_decodeOne, fun h => h ▸ roundTrip i rest⟩

/-! ### The empty program -/

/-- No bit follows the sentinel exactly in 0 and 1 (R68). -/
theorem programBits_eq_nil_iff {v : Nat} : programBits v = [] ↔ v = 0 ∨ v = 1 := by
  have hshort : blen v ≤ 1 ↔ v < 2 := blen_le_iff
  rw [← List.length_eq_zero_iff, length_programBits]
  omega

/-- Settles O10: a value decodes to the empty program exactly when no bit follows the sentinel. -/
theorem onlyZeroAndOneAreEmpty : Obligations.OnlyZeroAndOneAreEmpty := by
  unfold Obligations.OnlyZeroAndOneAreEmpty
  intro v
  rw [decodeAll_ok_iff, List.flatMap_nil, programBits_eq_nil_iff]

/-! ### Integers written out -/

/-- Settles O12: each word is evaluated; the tables' values are literals. -/
theorem writtenWordsDecode : Obligations.WrittenWordsDecode := by
  unfold Obligations.WrittenWordsDecode
  decide

/-- Settles O13: each integer of table T5 is evaluated. -/
theorem cutWordsAreTruncated : Obligations.CutWordsAreTruncated := by
  unfold Obligations.CutWordsAreTruncated
  decide

end Sys2Proof
end

section
/-! PROOFS. The statements about the bit-serial Decoder (spec/40_decoder.md R60 to R69): the cursor, what one step of it does,
and that its steps together compute `DecodeAll()`. -/

namespace Sys2Proof.Machine

/-! ### The cursor -/

/-- The search leaves the cursor one below the number of program bits, for 0 and 1 too (R61, R68). -/
theorem sentinelCur_eq (v : Nat) : sentinelCur v = ((blen v - 1 : Nat) : Int) - 1 := by
  by_cases hv : v = 0
  · simp [sentinelCur, hv]
  · have hpos := blen_pos hv
    simp only [sentinelCur, hv, if_false]
    omega

/-- Settles O14: VALUE lies between the powers of two at `blen(VALUE) − 1` and at `blen(VALUE)`. -/
theorem sentinelSearchFindsHighestBit : Obligations.SentinelSearchFindsHighestBit := by
  unfold Obligations.SentinelSearchFindsHighestBit
  intro s
  refine ⟨fun hzero => by simp [sentinelSearch, sentinelCur, hzero], fun hne => ?_⟩
  have hpos : 1 ≤ blen s.value := by rw [blen_pos hne]; omega
  have hlt : ∀ j, blen s.value ≤ j → s.value < 2 ^ j := fun j => blen_le_iff.mp
  refine ⟨by simp [sentinelSearch, sentinelCur, hne], hpos, ?_, fun j hj => Nat.testBit_eq_false_of_lt (hlt j hj)⟩
  exact Nat.testBit_of_two_pow_le_and_two_pow_add_one_gt (pow_blen_le hne) (hlt _ (by omega))

/-- Settles O15: the two branches of `nextBit`. -/
theorem nextBitReadsDownward : Obligations.NextBitReadsDownward := by
  unfold Obligations.NextBitReadsDownward
  exact fun s => ⟨fun hc => if_pos hc, fun hc => if_neg (not_lt.mpr hc)⟩

/-! ### One step in DECODE -/

/-- The step that begins `DecodeAll()` (R61, R66). -/
theorem step_search {s : State} (hdec : s.phase = .decode) (hwork : s.work = .search) :
    step s = .next (sentinelSearch { s with prog := [], work := .node .root }) := by
  simp only [step, coreStep, hdec, decodeStep, hwork]

/-- Every later step in DECODE is one in the dispatch tree (R50). -/
theorem step_node {s : State} {n : TreeNode} (hdec : s.phase = .decode) (hwork : s.work = .node n) :
    step s = .next (treeStep n s) := by
  simp only [step, coreStep, hdec, decodeStep, hwork]

/-- Settles O17: the step is one in the tree, and there the truncation (`treeStep_truncated`). -/
theorem truncationIsTaken : Obligations.TruncationIsTaken := by
  unfold Obligations.TruncationIsTaken
  intro s n hdec hwork hn hc
  rw [step_node hdec hwork, treeStep_truncated hn hc]
  rfl

/-- Settles O18: the step is one in the tree, and there the clean end (`treeStep_end`). -/
theorem decodingEndsAtABoundary : Obligations.DecodingEndsAtABoundary := by
  unfold Obligations.DecodingEndsAtABoundary
  intro s hdec hwork hc
  rw [step_node hdec hwork, treeStep_end hc]

/-- Settles O19: in DECODE no instruction runs, and every other step keeps the data (`SameData`). -/
theorem decoderTouchesOnlyItsOwnState : Obligations.DecoderTouchesOnlyItsOwnState := by
  unfold Obligations.DecoderTouchesOnlyItsOwnState
  intro s t hdec hstep
  obtain h | ⟨i, hrun, -, -⟩ := sameData_or_effect_of_step hstep
  · exact ⟨h.value, h.pc, h.vars, h.vlen, h.inBytes, h.inPos, h.inClosed, h.out, h.params⟩
  · simp [hdec] at hrun

/-! ### The steps of the Decoder together -/

theorem runSteps_succ {s t : State} {k : Nat} (h : step s = .next t) : runSteps (k + 1) s = runSteps k t := by
  rw [runSteps, h]

/-- The state in which decoding ends with the result `r`: RUN with the program, or FAULT with none (R66, R67). -/
def decoderEnd (s : State) (r : Except DecodeError (List Instr)) : State :=
  match r with
  | .ok p => { s with cur := -1, work := .node .root, prog := p, phase := .run }
  | .error _ => { s with cur := -1, work := .node .root, prog := [], phase := .fault, cause := .truncatedProgram }

/-- The end overwrites what the Decoder works on. -/
theorem decoderEnd_overwrites (s : State) (c : Int) (w : DecoderWork) (p : List Instr) (r : Except DecodeError (List Instr)) :
    decoderEnd { s with cur := c, work := w, prog := p } r = decoderEnd s r := by
  cases r <;> rfl

/-- With the cursor exhausted, a step in the tree ends decoding with its result (R66, R67). -/
theorem treeStep_exhausted {s : State} {n : TreeNode} (hwork : s.work = .node n) (hc : s.cur = -1) :
    treeStep n s = decoderEnd s (s.decodeResult n) := by
  have hneg : s.cur < 0 := by omega
  by_cases hn : n = .root
  · subst hn
    simp [treeStep_end hneg, decodeResult_of_exhausted hneg, decoderEnd, hwork, hc]
  · simp [treeStep_truncated hn hneg, decodeResult_of_exhausted hneg, decoderEnd, hn, raiseTruncated, hc]

/-- With `k` bits left the Decoder ends after one step for each and one for the end, with the result it had at the start: a
bit moves an instruction from the bits left to PROG, and their joint result stays (`decodeResult_feed`). -/
theorem runSteps_tree {s : State} {n : TreeNode} {k : Nat} (hdec : s.phase = .decode) (hwork : s.work = .node n)
    (hc : s.cur = (k : Int) - 1) : runSteps (k + 1) s = .next (decoderEnd s (s.decodeResult n)) := by
  induction k generalizing s n with
  | zero => rw [runSteps_succ (step_node hdec hwork), runSteps, treeStep_exhausted hwork (by simpa using hc)]
  | succ k ih =>
    obtain ⟨-, hneg, -⟩ | ⟨-, hneg, -⟩ | ⟨-, b, hbits, ht⟩ := treeStep_cases n s
    · omega
    · omega
    · rw [runSteps_succ (step_node hdec hwork), ht]
      refine Eq.trans (ih hdec rfl ?_) ?_
      · simp only
        omega
      · rw [decoderEnd_overwrites]
        congr 2
        exact decodeResult_feed hbits rfl

/-- Settles O16: the search leaves all the program bits to the tree, whose result is then that of `decodeAll`. -/
theorem decoderComputesDecodeAll : Obligations.DecoderComputesDecodeAll := by
  unfold Obligations.DecoderComputesDecodeAll
  intro s hdec hwork
  rw [runSteps_succ (step_search hdec hwork)]
  refine Eq.trans (runSteps_tree hdec rfl (sentinelCur_eq s.value)) ?_
  rw [decodeResult_sentinelSearch rfl]
  exact congrArg _ (decoderEnd_overwrites s _ _ _ _)

/-! ### The port width -/

/-- The state with another port width W. -/
def State.withWidth (s : State) (w : Nat) : State :=
  { s with params := { s.params with width := w } }

@[simp] theorem withWidth_work (s : State) (w : Nat) : (s.withWidth w).work = s.work := rfl
@[simp] theorem withWidth_phase (s : State) (w : Nat) : (s.withWidth w).phase = s.phase := rfl
@[simp] theorem withWidth_inLeft (s : State) (w : Nat) : (s.withWidth w).inLeft = s.inLeft := rfl
@[simp] theorem withWidth_fetch (s : State) (w : Nat) : fetch (s.withWidth w) = fetch s := rfl
@[simp] theorem withWidth_isWs (s : State) (w : Nat) : isWs (s.withWidth w).params = isWs s.params := rfl
@[simp] theorem withWidth_eofPolicy (s : State) (w : Nat) : (s.withWidth w).params.eofPolicy = s.params.eofPolicy := rfl

theorem treeStep_withWidth (n : TreeNode) (s : State) (w : Nat) :
    treeStep n (s.withWidth w) = (treeStep n s).withWidth w := by
  by_cases hc : s.cur < 0
  · by_cases hn : n = .root
    · subst hn
      rw [treeStep_end hc, treeStep_end (s := s.withWidth w) hc]
      rfl
    · rw [treeStep_truncated hn hc, treeStep_truncated (s := s.withWidth w) hn hc]
      rfl
  · rw [treeStep_bit hc, treeStep_bit (s := s.withWidth w) hc]
    rfl

/-- The Decoder reads no W: its cursor comes from VALUE itself (R63). -/
theorem decodeStep_withWidth (s : State) (w : Nat) : decodeStep (s.withWidth w) = (decodeStep s).withWidth w := by
  rw [decodeStep, decodeStep, withWidth_work]
  cases s.work with
  | search => rfl
  | node n => exact treeStep_withWidth n s w

theorem nextChar_withWidth (s : State) (w : Nat) :
    nextChar (s.withWidth w) = ((nextChar s).1, (nextChar s).2.withWidth w) := by
  rw [nextChar_eq, nextChar_eq, withWidth_inLeft, withWidth_isWs]
  split <;> rfl

theorem endOfInput_withWidth (v : Nat) (s : State) (w : Nat) :
    endOfInput v (s.withWidth w) = (endOfInput v s).withWidth w := by
  rw [endOfInput, endOfInput, withWidth_eofPolicy]
  cases s.params.eofPolicy <;> rfl

/-- An instruction reads no W. -/
theorem exec_withWidth (i : Instr) (s : State) (w : Nat) :
    ∃ t, exec i s = .next t ∧ exec i (s.withWidth w) = .next (t.withWidth w) := by
  cases i with
  | print v | inc v | dec v => exact ⟨_, rfl, rfl⟩
  | jump c o =>
    cases hx : jumpTaken (s.var c) with
    | true => exact ⟨_, exec_jump_taken hx, exec_jump_taken (s := s.withWidth w) hx⟩
    | false => exact ⟨_, exec_jump_not_taken hx, exec_jump_not_taken (s := s.withWidth w) hx⟩
  | input v =>
    simp only [exec, execInput, nextChar_withWidth]
    obtain ⟨r, s1⟩ := nextChar s
    cases r with
    | byte c => exact ⟨_, rfl, rfl⟩
    | eof => exact ⟨_, rfl, by simp only [endOfInput_withWidth]; rfl⟩
    | hold => exact ⟨_, rfl, rfl⟩

theorem step_withWidth (s : State) (w : Nat) :
    ∃ t, step s = .next t ∧ step (s.withWidth w) = .next (t.withWidth w) := by
  simp only [step, coreStep, withWidth_phase]
  cases s.phase with
  | idle | halted | fault => exact ⟨s, rfl, rfl⟩
  | decode => exact ⟨_, rfl, congrArg _ (decodeStep_withWidth s w)⟩
  | run =>
    simp only [machineStep, withWidth_fetch]
    cases fetch s with
    | none => exact ⟨halt s, rfl, rfl⟩
    | some i => exact exec_withWidth i s w

/-- Settles O20: no step reads W, so a run from the other width follows step by step (`step_withWidth`). -/
theorem portWidthChangesNoStep : Obligations.PortWidthChangesNoStep := by
  unfold Obligations.PortWidthChangesNoStep
  intro k w s t hrun
  induction k generalizing s with
  | zero => cases hrun; rfl
  | succ k ih =>
    obtain ⟨s', hs, hs'⟩ := step_withWidth s w
    rw [State.withWidth] at hs'
    rw [runSteps_succ hs] at hrun
    rw [runSteps_succ hs']
    exact ih s' hrun

/-! ### The invariant along the moves of the core and the Host -/

/-- A launch keeps the invariant: in IDLE nothing has executed, and decoding has not begun (R123). -/
theorem launch_keeps_inv {s : State} {v : Nat} (h : s.Inv) (hidle : s.phase = .idle) (hv : v < 2 ^ s.params.width) :
    ({ s with value := v, phase := .decode, work := .search } : State).Inv :=
  { h with
    value_lt := hv
    cur_le := by
      obtain ⟨hcur, -⟩ := h.rest (by simp [hidle])
      exact hcur ▸ le_max_left _ _
    cause_iff := by simp [h.cause_none, hidle]
    idle := by simp
    decoding := by simp
    rest := by simp
    decoded := by simp
    faulted := by simp
    unstarted := fun _ => h.unstarted (.inl hidle)
    halted := by simp }

/-- An append lengthens the input stream, and no other conjunct speaks of IN (R21). -/
theorem append_keeps_inv {s : State} (h : s.Inv) (b : Byte) : ({ s with inBytes := s.inBytes ++ [b] } : State).Inv :=
  { h with
    inPos_le := by
      have := h.inPos_le
      simp only [List.length_append]
      omega }

/-- Every move of the Host that is not refused keeps the invariant. -/
theorem hostMove_keeps_inv {m : HostMove} {s t : State} (h : s.Inv) (hmove : hostMove m s = .next t) : t.Inv := by
  cases m with
  | launch v =>
    simp only [hostMove, launch] at hmove
    split at hmove
    · split at hmove
      · cases hmove
        exact launch_keeps_inv h ‹_› ‹_›
      · cases hmove
    · cases hmove
  | append b =>
    simp only [hostMove, appendInput] at hmove
    split at hmove
    · cases hmove
    · cases hmove
      exact append_keeps_inv h b
  | close =>
    cases hmove
    exact { h with }
  | reset =>
    cases hmove
    exact resetMeetsTheInvariant.1 s.params

theorem act_keeps_inv {m : Move} {s t : State} (h : s.Inv) (hact : act m s = .next t) : t.Inv := by
  cases m with
  | core => exact stepKeepsTheInvariant s t h hact
  | host m => exact hostMove_keeps_inv h hact

/-- The invariant holds after any moves from a state that meets it. -/
theorem actAll_keeps_inv {ms : List Move} {s t : State} (h : s.Inv) (hacts : actAll ms s = .next t) : t.Inv := by
  induction ms generalizing s with
  | nil => cases hacts; exact h
  | cons m ms ih =>
    simp only [actAll] at hacts
    split at hacts
    · exact ih (act_keeps_inv h ‹_›) hacts
    · cases hacts
    · cases hacts

/-- While VALUE is truncated the Machine has not started (R67, R129). -/
theorem State.Inv.not_started {s : State} (h : s.Inv) (htrunc : decodeAll s.value = .error .truncatedProgram) :
    s.phase ≠ .run ∧ s.phase ≠ .halted := by
  have hno : ¬ (s.phase = .run ∨ s.phase = .halted) := fun hp => by simpa [htrunc] using h.decoded hp
  exact not_or.mp hno

/-- Settles O55: the invariant holds along every run from reset, and with VALUE truncated it says that nothing has run. -/
theorem truncatedProgramsNeverRun : Obligations.TruncatedProgramsNeverRun := by
  unfold Obligations.TruncatedProgramsNeverRun
  intro ms p s hacts htrunc
  have h : s.Inv := actAll_keeps_inv (resetMeetsTheInvariant.1 p) hacts
  obtain ⟨hrun, hhalted⟩ := h.not_started htrunc
  have hphase : s.phase = .idle ∨ s.phase = .decode ∨ s.phase = .fault := by
    cases hp : s.phase with
    | idle | decode | fault => simp
    | run => exact absurd hp hrun
    | halted => exact absurd hp hhalted
  obtain ⟨hpc, hvars, -, hinPos, hout⟩ := h.unstarted hphase
  have hvar : ∀ j, s.var j = 0#8 := fun j => by rw [State.var, hvars, read_nil]
  exact ⟨hrun, hhalted, hpc, hvar, hout, hinPos, fun hf => ⟨(h.faulted hf).2, h.cause_iff.mpr hf⟩⟩

end Sys2Proof.Machine
end

section
/-! PROOFS. The statements about the Machine's cycle (spec/41_machine_cycle.md): the variable access primitives, the fetch and
the end of a run, that every step answers a next state, and that the Machine reads nothing of the Decoder's. -/

namespace Sys2Proof.Machine

/-! ### Variables -/

/-- Settles O21: a variable after a write (`memWrite_var`), and the two elements `memWrite` sets. -/
theorem variableWrite : Obligations.VariableWrite := by
  unfold Obligations.VariableWrite
  intro i b s
  have hsame : (memWrite i b s).var i = b := by rw [memWrite_var, if_pos rfl]
  have hother : ∀ j, j ≠ i → (memWrite i b s).var j = s.var j := fun j hj => by rw [memWrite_var, if_neg hj]
  exact ⟨hsame, hother, rfl⟩

/-- Settles O22: MemRead grows the store, which changes no variable, and the empty store lists none. -/
theorem variableRead : Obligations.VariableRead := by
  unfold Obligations.VariableRead
  refine ⟨fun i s => rfl, fun i s hempty => ?_⟩
  rw [memRead_fst, State.var, hempty, read_nil]

/-! ### The fetch and the end of a run -/

/-- From pc = 0 upward the fetch is the look-up in PROG (R75). -/
theorem fetch_of_nonneg {s : State} (h : 0 ≤ s.pc) : fetch s = s.prog[s.pc.toNat]? := by
  rw [fetch, if_neg (not_lt.mpr h)]

/-- In RUN the step with nothing to fetch is the halt (R76). -/
theorem step_eq_halt {s : State} (hrun : s.phase = .run) (hfetch : fetch s = none) : step s = .next (halt s) := by
  simp only [step, coreStep, hrun, machineStep, hfetch]

/-- While the Machine runs, any program VALUE decodes to is the one PROG holds (R66). -/
theorem State.Inv.prog_eq_of_run {s : State} {p : List Instr} (h : s.Inv) (hrun : s.phase = .run)
    (hp : decodeAll s.value = .ok p) : s.prog = p :=
  Except.ok.inj ((h.decoded (.inl hrun)).symm.trans hp)

/-- Settles O24: the fetch gives what PROG holds at pc (`step_eq_exec`), and under the invariant PROG is VALUE's decoding. -/
theorem stepRunsTheFetchedInstruction : Obligations.StepRunsTheFetchedInstruction := by
  unfold Obligations.StepRunsTheFetchedInstruction
  intro s i hrun hpc
  have hstep : s.prog[s.pc.toNat]? = some i → step s = exec i s :=
    fun hi => step_eq_exec hrun ((fetch_of_nonneg hpc).trans hi)
  refine ⟨hstep, fun p hinv hp hi => hstep ?_⟩
  rw [hinv.prog_eq_of_run hrun hp, hi]

/-- Settles O26: out of range there is nothing to fetch (`fetch_eq_none_iff`), and the step is the halt. -/
theorem pcOutOfRangeHalts : Obligations.PcOutOfRangeHalts := by
  unfold Obligations.PcOutOfRangeHalts
  exact fun s hrun hpc => step_eq_halt hrun ((fetch_eq_none_iff s).mpr hpc)

/-- Settles O28: by PHASE; in RUN the step is the halt or an instruction, which answers a next state (`exec_effect`). -/
theorem everyStepAnswersANextState : Obligations.EveryStepAnswersANextState := by
  unfold Obligations.EveryStepAnswersANextState
  intro s
  cases hp : s.phase with
  | idle => exact ⟨s, outsideDecodeAndRunTheCoreStays s (.inl hp)⟩
  | halted => exact ⟨s, outsideDecodeAndRunTheCoreStays s (.inr (.inl hp))⟩
  | fault => exact ⟨s, outsideDecodeAndRunTheCoreStays s (.inr (.inr hp))⟩
  | decode =>
    cases hwork : s.work with
    | search => exact ⟨_, step_search hp hwork⟩
    | node n => exact ⟨_, step_node hp hwork⟩
  | run =>
    cases hfetch : fetch s with
    | none => exact ⟨_, step_eq_halt hp hfetch⟩
    | some i =>
      obtain ⟨t, hexec, -⟩ := exec_effect i s
      exact ⟨t, (step_eq_exec hp hfetch).trans hexec⟩

/-! ### The Machine reads nothing of the Decoder's -/

/-- The state with another VALUE, CUR and working state of the Decoder. -/
def State.withDecoder (s : State) (v : Nat) (c : Int) (w : DecoderWork) : State :=
  { s with value := v, cur := c, work := w }

section
variable (s : State) (v : Nat) (c : Int) (w : DecoderWork)

@[simp] theorem withDecoder_phase : (s.withDecoder v c w).phase = s.phase := rfl
@[simp] theorem withDecoder_params : (s.withDecoder v c w).params = s.params := rfl
@[simp] theorem withDecoder_inLeft : (s.withDecoder v c w).inLeft = s.inLeft := rfl
@[simp] theorem withDecoder_fetch : fetch (s.withDecoder v c w) = fetch s := rfl

theorem nextChar_withDecoder :
    nextChar (s.withDecoder v c w) = ((nextChar s).1, (nextChar s).2.withDecoder v c w) := by
  rw [nextChar_eq, nextChar_eq, withDecoder_inLeft, withDecoder_params]
  split <;> rfl

theorem endOfInput_withDecoder (i : Nat) :
    endOfInput i (s.withDecoder v c w) = (endOfInput i s).withDecoder v c w := by
  rw [endOfInput, endOfInput, withDecoder_params]
  cases s.params.eofPolicy <;> rfl

/-- An instruction reads neither VALUE nor CUR nor the working state, and leaves them alone (R43, R74). -/
theorem exec_withDecoder (i : Instr) :
    ∃ t, exec i s = .next t ∧ exec i (s.withDecoder v c w) = .next (t.withDecoder v c w) := by
  cases i with
  | print a | inc a | dec a => exact ⟨_, rfl, rfl⟩
  | jump a b =>
    cases hx : jumpTaken (s.var a) with
    | true => exact ⟨_, exec_jump_taken hx, exec_jump_taken (s := s.withDecoder v c w) hx⟩
    | false => exact ⟨_, exec_jump_not_taken hx, exec_jump_not_taken (s := s.withDecoder v c w) hx⟩
  | input a =>
    simp only [exec, execInput, nextChar_withDecoder]
    obtain ⟨r, s1⟩ := nextChar s
    cases r with
    | byte b => exact ⟨_, rfl, rfl⟩
    | eof => exact ⟨_, rfl, by simp only [endOfInput_withDecoder]; rfl⟩
    | hold => exact ⟨_, rfl, rfl⟩

/-- In RUN a step from states that differ only in the Decoder's elements leads to states that differ only in these. -/
theorem step_withDecoder (hrun : s.phase = .run) :
    ∃ t, step s = .next t ∧ step (s.withDecoder v c w) = .next (t.withDecoder v c w) := by
  have hrun' := (withDecoder_phase s v c w).trans hrun
  have hsame := withDecoder_fetch s v c w
  cases hfetch : fetch s with
  | none => exact ⟨halt s, step_eq_halt hrun hfetch, step_eq_halt hrun' (hsame.trans hfetch)⟩
  | some i =>
    rw [step_eq_exec hrun hfetch, step_eq_exec hrun' (hsame.trans hfetch)]
    exact exec_withDecoder s v c w i

end

/-- Settles O51: in RUN the step is the halt or an instruction, and neither reads the Decoder's elements. -/
theorem machineIgnoresDecoderState : Obligations.MachineIgnoresDecoderState := by
  unfold Obligations.MachineIgnoresDecoderState
  intro s t v c w hrun hstep
  obtain ⟨t', ht, ht'⟩ := step_withDecoder s v c w hrun
  obtain rfl : t' = t := by simpa [ht] using hstep
  exact ht'

end Sys2Proof.Machine
end

section
/-! PROOFS. The statements about character I/O (spec/42_io.md R85 to R89): PRINT's effect, the whitespace set, INPUT's three
outcomes, that a hold changes no outcome, and the frames of PRINT, JUMP and INPUT. -/

namespace Sys2Proof.Machine

/-! ### PRINT -/

/-- Settles O29: the read grows the store, and the byte read goes to OUT. -/
theorem printAppendsItsVariable : Obligations.PrintAppendsItsVariable := by
  unfold Obligations.PrintAppendsItsVariable
  exact fun v s => rfl

/-! ### The whitespace set -/

theorem isWs_iff {p : Params} {c : Byte} : isWs p c = true ↔ c ∈ p.ws := by simp [isWs]

/-- Settles O43: the three bytes are conjuncts of `Params.wf`, and the six at reset are compared as numbers. -/
theorem whitespaceSetContents : Obligations.WhitespaceSetContents := by
  unfold Obligations.WhitespaceSetContents
  refine ⟨fun p hwf => ?_, by decide, fun c => ?_⟩
  · simp only [Params.wf, Bool.and_eq_true] at hwf
    obtain ⟨⟨⟨hspace, htab⟩, hnewline⟩, -⟩ := hwf
    exact ⟨hspace, htab, hnewline⟩
  · have hmem : isWs State.reset.params c = true ↔ c ∈ recommendedWs := isWs_iff
    simp only [hmem, recommendedWs, List.mem_cons, List.not_mem_nil, or_false, BitVec.toNat_eq, BitVec.toNat_ofNat]
    omega

/-! ### INPUT's scan of the stream -/

/-- The bytes left, with the stream read up to its end, fill the stream (R21). -/
theorem inPos_add_length_inLeft {s : State} (h : s.inPos ≤ s.inBytes.length) :
    s.inPos + s.inLeft.length = s.inBytes.length := by
  rw [State.inLeft, List.length_drop]
  omega

/-- The scan takes the first byte outside WS, and the whitespace in front of it (R86). -/
theorem nextChar_of_byte {s : State} {skipped after : List Byte} {c : Byte} (hleft : s.inLeft = skipped ++ c :: after)
    (hskipped : ∀ b ∈ skipped, isWs s.params b = true) (hc : isWs s.params c = false) :
    nextChar s = (.byte c, { s with inPos := s.inPos + skipped.length + 1 }) := by
  have hdrop : s.inLeft.dropWhile (isWs s.params) = c :: after := by
    rw [hleft, List.dropWhile_append_of_pos hskipped, List.dropWhile_cons_of_neg (by simp [hc])]
  have htake : s.inLeft.takeWhile (isWs s.params) = skipped := by
    rw [hleft, List.takeWhile_append_of_pos hskipped, List.takeWhile_cons_of_neg (by simp [hc]), List.append_nil]
  simp only [nextChar_eq, hdrop, htake]

/-- With only whitespace left the scan takes all of it, and INCLOSED says whether the input has ended (R87, R88). -/
theorem nextChar_of_whitespace {s : State} (hpos : s.inPos ≤ s.inBytes.length)
    (hws : ∀ b ∈ s.inLeft, isWs s.params b = true) :
    nextChar s = (if s.inClosed then .eof else .hold, { s with inPos := s.inBytes.length }) := by
  have hdrop : s.inLeft.dropWhile (isWs s.params) = [] := List.dropWhile_eq_nil_iff.mpr hws
  simp only [nextChar_eq, hdrop, inPos_add_length_inLeft hpos]

/-- Whitespace consumed before the scan begins makes no difference to it (R86). -/
theorem nextChar_skip {s : State} {skipped rest : List Byte} (hleft : s.inLeft = skipped ++ rest)
    (hskipped : ∀ b ∈ skipped, isWs s.params b = true) :
    nextChar { s with inPos := s.inPos + skipped.length } = nextChar s := by
  have hrest : ({ s with inPos := s.inPos + skipped.length } : State).inLeft = rest := by
    have hdrop := congrArg (List.drop skipped.length) hleft
    rwa [List.drop_left, State.inLeft, List.drop_drop] at hdrop
  rw [nextChar_eq, nextChar_eq, hrest, hleft]
  simp only [List.dropWhile_append_of_pos hskipped, List.takeWhile_append_of_pos hskipped, List.length_append]
  split <;> simp only [Nat.add_assoc]

/-! ### INPUT, an equation per outcome of the scan -/

theorem exec_input_byte {s s1 : State} {v : Nat} {c : Byte} (h : nextChar s = (.byte c, s1)) :
    exec (.input v) s = .next (advance (memWrite v c s1)) := by
  simp only [exec, execInput, h]

theorem exec_input_eof {s s1 : State} {v : Nat} (h : nextChar s = (.eof, s1)) :
    exec (.input v) s = .next (advance (endOfInput v s1)) := by
  simp only [exec, execInput, h]

theorem exec_input_hold {s s1 : State} {v : Nat} (h : nextChar s = (.hold, s1)) : exec (.input v) s = .next s1 := by
  simp only [exec, execInput, h]

/-- INPUT reads the state through its scan only. -/
theorem exec_input_congr {s s' : State} (v : Nat) (h : nextChar s = nextChar s') :
    exec (.input v) s = exec (.input v) s' := by
  simp only [exec, execInput, h]

theorem endOfInput_unchanged {s : State} (v : Nat) (h : s.params.eofPolicy = .unchanged) : endOfInput v s = grow v s := by
  rw [endOfInput, h]

theorem endOfInput_zero {s : State} (v : Nat) (h : s.params.eofPolicy = .zero) : endOfInput v s = memWrite v 0#8 s := by
  rw [endOfInput, h]

/-- Settles O39: the scan takes the byte (`nextChar_of_byte`), and INPUT writes it at its operand (`variableWrite`). -/
theorem inputStoresTheNextCharacter : Obligations.InputStoresTheNextCharacter := by
  unfold Obligations.InputStoresTheNextCharacter
  intro v s skipped c after hleft hskipped hc
  obtain ⟨hsame, hother, -⟩ := variableWrite v c { s with inPos := s.inPos + skipped.length + 1 }
  exact ⟨_, exec_input_byte (nextChar_of_byte hleft hskipped hc), hsame, hother, rfl⟩

/-- Settles O40: the scan ends with the whole stream consumed (`nextChar_of_whitespace`), and EOF_POLICY decides. -/
theorem inputAtEndOfInput : Obligations.InputAtEndOfInput := by
  unfold Obligations.InputAtEndOfInput
  intro v s hpos hws hclosed
  have hscan : nextChar s = (.eof, { s with inPos := s.inBytes.length }) := by
    rw [nextChar_of_whitespace hpos hws, if_pos hclosed]
  rw [exec_input_eof hscan]
  cases hp : s.params.eofPolicy with
  | unchanged =>
    rw [endOfInput_unchanged (s := { s with inPos := s.inBytes.length }) v hp]
    exact ⟨_, rfl, fun _ j => rfl, by simp, rfl⟩
  | zero =>
    rw [endOfInput_zero (s := { s with inPos := s.inBytes.length }) v hp]
    obtain ⟨hsame, hother, -⟩ := variableWrite v 0#8 { s with inPos := s.inBytes.length }
    exact ⟨_, rfl, by simp, fun _ => ⟨hsame, hother⟩, rfl⟩

/-- Settles O41: the scan holds with the whole stream consumed (`nextChar_of_whitespace`), and nothing more happens. -/
theorem inputHoldsOnAnOpenStream : Obligations.InputHoldsOnAnOpenStream := by
  unfold Obligations.InputHoldsOnAnOpenStream
  intro v s hpos hws hopen
  apply exec_input_hold
  rw [nextChar_of_whitespace hpos hws, if_neg (by simp [hopen])]

/-! ### A hold changes no outcome -/

/-- INPUT does the same with the whitespace at the front of the bytes left already consumed. -/
theorem exec_input_skip {s : State} {skipped rest : List Byte} (v : Nat) (hleft : s.inLeft = skipped ++ rest)
    (hskipped : ∀ b ∈ skipped, isWs s.params b = true) :
    exec (.input v) { s with inPos := s.inPos + skipped.length } = exec (.input v) s :=
  exec_input_congr v (nextChar_skip hleft hskipped)

/-- An append adds its byte at the end of the bytes left (R21). -/
theorem inLeft_append {s : State} (hpos : s.inPos ≤ s.inBytes.length) (b : Byte) :
    ({ s with inBytes := s.inBytes ++ [b] } : State).inLeft = s.inLeft ++ [b] :=
  List.drop_append_of_le_length hpos

theorem eq_of_append {s t : State} {b : Byte} (h : hostMove (.append b) s = .next t) (hopen : s.inClosed = false) :
    t = { s with inBytes := s.inBytes ++ [b] } := by
  obtain ⟨happend, -⟩ := hostFeedsClosesAndResets b s
  exact Host.Outcome.next.inj (h.symm.trans (happend hopen))

/-- Settles O42: a close or an append leaves the whitespace at the front of the bytes left, so INPUT does not depend on
whether the hold has consumed it (`exec_input_skip`). -/
theorem heldInputResumesAsIfNotHeld : Obligations.HeldInputResumesAsIfNotHeld := by
  unfold Obligations.HeldInputResumesAsIfNotHeld
  intro v s s1 s2 s3 m hpos hws hopen hhold hmove hs2 hs3
  obtain rfl : { s with inPos := s.inPos + s.inLeft.length } = s1 := by
    rw [inputHoldsOnAnOpenStream v s hpos hws hopen] at hhold
    rw [inPos_add_length_inLeft hpos]
    exact Host.Outcome.next.inj hhold
  obtain rfl | ⟨b, rfl⟩ := hmove
  · cases hs2
    cases hs3
    exact exec_input_skip v (s := { s with inClosed := true }) (List.append_nil s.inLeft).symm hws
  · obtain rfl := eq_of_append hs2 hopen
    obtain rfl := eq_of_append hs3 hopen
    exact exec_input_skip v (inLeft_append hpos b) hws

/-! ### Frames -/

theorem Effect.sameControl {i : Instr} {s t : State} (he : Effect i s t) : s.SameControl t :=
  ⟨he.value, he.cur, he.work, he.prog, he.inBytes, he.inClosed, he.phase, he.cause, he.params⟩

/-- An instruction writes no variable but the operand of INPUT, INC or DEC (R18). -/
theorem Effect.var_eq {i : Instr} {s t : State} (he : Effect i s t) {a : Nat}
    (ha : ¬ (i = .input a ∨ i = .inc a ∨ i = .dec a)) : t.var a = s.var a := by
  obtain hvars | ⟨v, b, hvars, -, hi⟩ := he.vars
  · exact var_congr hvars a
  · have hav : a ≠ v := fun h => ha (h ▸ hi)
    rw [State.var, hvars, read_write_other _ _ hav, State.var]

/-- Only INPUT moves INPOS (R21). -/
theorem Effect.inPos_eq {i : Instr} {s t : State} (he : Effect i s t) (hi : ∀ v, i ≠ .input v) : t.inPos = s.inPos := by
  by_contra hne
  obtain ⟨v, hv⟩ := he.inPos_input hne
  exact hi v hv

/-- Only PRINT writes OUT (R22). -/
theorem Effect.out_eq {i : Instr} {s t : State} (he : Effect i s t) (hi : ∀ v, i ≠ .print v) : t.out = s.out := by
  obtain hout | ⟨v, hv, -⟩ := he.out
  · exact hout
  · exact absurd hv (hi v)

/-- Settles O44: an instruction's effect, for two that write no variable and take no input; what PRINT appends is O29's. -/
theorem frameOfPrintAndJump : Obligations.FrameOfPrintAndJump := by
  unfold Obligations.FrameOfPrintAndJump
  refine fun s t v c o => ⟨fun hexec => ?_, fun hexec => ?_⟩
  · have he := effect_of_exec hexec
    have hout : ∃ b, t.out = s.out ++ [b] := by
      rw [printAppendsItsVariable v s] at hexec
      cases hexec
      exact ⟨s.var v, rfl⟩
    exact ⟨he.sameControl, he.inPos_eq (by simp), fun a => he.var_eq (by simp), he.vlen, hout⟩
  · have he := effect_of_exec hexec
    exact ⟨he.sameControl, he.inPos_eq (by simp), fun a => he.var_eq (by simp), he.vlen, he.out_eq (by simp)⟩

/-- Settles O46: an instruction's effect, for INPUT: it does not print, and writes at its own operand only. -/
theorem frameOfInput : Obligations.FrameOfInput := by
  unfold Obligations.FrameOfInput
  intro s t v hexec
  have he := effect_of_exec hexec
  have hother : ∀ a, a ≠ v → t.var a = s.var a := fun a ha => he.var_eq (by simpa using ha.symm)
  exact ⟨he.sameControl, he.out_eq (by simp), he.inPos, he.vlen, hother⟩

end Sys2Proof.Machine
end

section
/-! PROOFS. The statements about arithmetic (spec/43_arith.md R90 to R92): what INC and DEC do, how their repetition counts,
that they are inverse, and their frame. -/

namespace Sys2Proof.Machine

/-! ### INC and DEC, an equation each -/

theorem toNat_incByte (x : Byte) : (incByte x).toNat = (x.toNat + 1) % 256 := by simp [incByte]

theorem toNat_decByte (x : Byte) : (decByte x).toNat = (x.toNat + 255) % 256 := by simp [decByte]

/-- A write after a reference of the same variable: the write grows the store to the same length (R80, R81). -/
theorem memWrite_grow (v : Nat) (b : Byte) (s : State) : memWrite v b (grow v s) = memWrite v b s := by
  simp [memWrite, grow]

theorem exec_inc (v : Nat) (s : State) :
    exec (.inc v) s = .next (advance (memWrite v (incByte (s.var v)) s)) := by
  simp only [exec, execInc, memRead_fst, memRead_snd, memWrite_grow]

theorem exec_dec (v : Nat) (s : State) :
    exec (.dec v) s = .next (advance (memWrite v (decByte (s.var v)) s)) := by
  simp only [exec, execDec, memRead_fst, memRead_snd, memWrite_grow]

/-- Settles O30: INC writes its variable's byte plus one (`exec_inc`), and the write touches no other (`variableWrite`). -/
theorem incAddsOneModulo256 : Obligations.IncAddsOneModulo256 := by
  unfold Obligations.IncAddsOneModulo256
  intro v s
  obtain ⟨hsame, hother, -⟩ := variableWrite v (incByte (s.var v)) s
  exact ⟨rfl, _, exec_inc v s, by rw [advance_var, hsame, toNat_incByte], hother, rfl⟩

/-- Settles O31: DEC writes its variable's byte plus 255 (`exec_dec`), and the write touches no other (`variableWrite`). -/
theorem decSubtractsOneModulo256 : Obligations.DecSubtractsOneModulo256 := by
  unfold Obligations.DecSubtractsOneModulo256
  intro v s
  obtain ⟨hsame, hother, -⟩ := variableWrite v (decByte (s.var v)) s
  exact ⟨rfl, _, exec_dec v s, by rw [advance_var, hsame, toNat_decByte], hother, rfl⟩

/-! ### Sums of changes to one variable -/

/-- From `s` to `t` variable `v` grows by `d` modulo 256, and no other variable changes. -/
def AddsTo (v d : Nat) (s t : State) : Prop :=
  (t.var v).toNat = ((s.var v).toNat + d) % 256 ∧ ∀ j, j ≠ v → t.var j = s.var j

theorem AddsTo.refl (v : Nat) (s : State) : AddsTo v 0 s s :=
  ⟨(Nat.mod_eq_of_lt (s.var v).isLt).symm, fun _ _ => rfl⟩

/-- Changes of one variable add up. -/
theorem AddsTo.trans {v d e : Nat} {s t u : State} (hst : AddsTo v d s t) (htu : AddsTo v e t u) :
    AddsTo v (d + e) s u := by
  obtain ⟨ht, hst⟩ := hst
  obtain ⟨hu, htu⟩ := htu
  refine ⟨?_, fun j hj => (htu j hj).trans (hst j hj)⟩
  rw [hu, ht, Nat.mod_add_mod, Nat.add_assoc]

/-- A change by 256 is none (R92). -/
theorem AddsTo.var_eq {v : Nat} {s t : State} (h : AddsTo v 256 s t) (j : Nat) : t.var j = s.var j := by
  obtain ⟨hv, hother⟩ := h
  by_cases hj : j = v
  · subst hj
    rw [Nat.add_mod_right, Nat.mod_eq_of_lt (s.var j).isLt] at hv
    exact BitVec.eq_of_toNat_eq hv
  · exact hother j hj

/-- From every state instruction `i` answers a next state in which variable `v` is `d` more. -/
def ExecAdds (i : Instr) (v d : Nat) : Prop :=
  ∀ s, ∃ t, exec i s = .next t ∧ AddsTo v d s t

theorem execAdds_inc (v : Nat) : ExecAdds (.inc v) v 1 := by
  intro s
  obtain ⟨-, t, hexec, hv, hother, -⟩ := incAddsOneModulo256 v s
  exact ⟨t, hexec, hv, hother⟩

theorem execAdds_dec (v : Nat) : ExecAdds (.dec v) v 255 := by
  intro s
  obtain ⟨-, t, hexec, hv, hother, -⟩ := decSubtractsOneModulo256 v s
  exact ⟨t, hexec, hv, hother⟩

/-! ### Repetition and inverse -/

theorem execTimes_succ {i : Instr} {s t : State} (h : exec i s = .next t) (n : Nat) :
    execTimes (n + 1) i s = execTimes n i t := by
  rw [execTimes, h]

/-- An instruction that adds `d` to a variable adds `d n` when it is executed `n` times. -/
theorem ExecAdds.execTimes {i : Instr} {v d : Nat} (hi : ExecAdds i v d) (n : Nat) (s : State) :
    ∃ t, Machine.execTimes n i s = .next t ∧ AddsTo v (d * n) s t := by
  induction n generalizing s with
  | zero => exact ⟨s, rfl, .refl v s⟩
  | succ n ih =>
    obtain ⟨t, hexec, hst⟩ := hi s
    obtain ⟨u, htimes, htu⟩ := ih t
    refine ⟨u, (execTimes_succ hexec n).trans htimes, ?_⟩
    rw [Nat.mul_succ, Nat.add_comm]
    exact hst.trans htu

/-- Settles O32: by induction on the number of executions (`ExecAdds.execTimes`), each of which adds 1 or 255. -/
theorem repeatedIncAndDecCountModulo256 : Obligations.RepeatedIncAndDecCountModulo256 := by
  unfold Obligations.RepeatedIncAndDecCountModulo256
  intro n v s
  have hinc := (execAdds_inc v).execTimes n s
  rw [Nat.one_mul] at hinc
  exact ⟨hinc, (execAdds_dec v).execTimes n s⟩

/-- Two instructions that together add 256 to a variable, one after the other, restore every variable. -/
theorem ExecAdds.var_eq {i k : Instr} {v d e : Nat} (hi : ExecAdds i v d) (hk : ExecAdds k v e) (hsum : d + e = 256)
    (s : State) :
    ∃ t u, exec i s = .next t ∧ exec k t = .next u ∧ ∀ j, u.var j = s.var j := by
  obtain ⟨t, hexec, hst⟩ := hi s
  obtain ⟨u, hexec', htu⟩ := hk t
  exact ⟨t, u, hexec, hexec', (hsum ▸ hst.trans htu).var_eq⟩

/-- Settles O33: in either order the two changes add up to 256 (`ExecAdds.var_eq`). -/
theorem incAndDecAreInverse : Obligations.IncAndDecAreInverse := by
  unfold Obligations.IncAndDecAreInverse
  intro v s
  exact ⟨(execAdds_inc v).var_eq (execAdds_dec v) rfl s, (execAdds_dec v).var_eq (execAdds_inc v) rfl s⟩

/-! ### Frame -/

/-- An instruction that is INC(v) or DEC(v) moves no stream and writes at `v` only (R90, R91). -/
theorem Effect.frame_of_inc_or_dec {i : Instr} {v : Nat} {s t : State} (he : Effect i s t) (hi : i = .inc v ∨ i = .dec v) :
    s.SameControl t ∧ t.inPos = s.inPos ∧ t.out = s.out ∧ s.vlen ≤ t.vlen ∧ ∀ a, a ≠ v → t.var a = s.var a := by
  have hinput : ∀ a, i ≠ .input a := by rintro a rfl; simp at hi
  have hprint : ∀ a, i ≠ .print a := by rintro a rfl; simp at hi
  have hother : ∀ a, a ≠ v → t.var a = s.var a := fun a ha => he.var_eq <| by
    obtain rfl | rfl := hi <;> simpa using ha.symm
  exact ⟨he.sameControl, he.inPos_eq hinput, he.out_eq hprint, he.vlen, hother⟩

/-- Settles O45: an instruction's effect, for INC and for DEC. -/
theorem frameOfIncAndDec : Obligations.FrameOfIncAndDec := by
  unfold Obligations.FrameOfIncAndDec
  rintro s t v (hexec | hexec)
  · exact (effect_of_exec hexec).frame_of_inc_or_dec (.inl rfl)
  · exact (effect_of_exec hexec).frame_of_inc_or_dec (.inr rfl)

end Sys2Proof.Machine
end

section
/-! PROOFS. The statements about JUMP (spec/44_jump.md R95 to R97): when it is taken, the two readings of its offset, the jumps
that stay where they are, and the long unsigned jump that leaves the program. -/

namespace Sys2Proof.Machine

/-! ### The condition and the target -/

theorem jumpTaken_iff {x : Byte} : jumpTaken x = true ↔ x = 0#8 := by simp [jumpTaken]

/-- Settles O34: the two equations of a JUMP (`exec_jump_taken`, `exec_jump_not_taken`), by its condition (`jumpTaken_iff`). -/
theorem jumpTakenExactlyOnZero : Obligations.JumpTakenExactlyOnZero := by
  unfold Obligations.JumpTakenExactlyOnZero
  intro c o s
  constructor
  · intro hzero
    rw [exec_jump_taken (jumpTaken_iff.mpr hzero)]
    rfl
  · intro hne
    rw [exec_jump_not_taken (Bool.eq_false_iff.mpr (mt jumpTaken_iff.mp hne))]
    rfl

/-! ### The readings of the offset -/

theorem offset_false (b : Byte) : offset false b = b.toNat := rfl

theorem offset_true_of_lt {b : Byte} (h : b.toNat < 128) : offset true b = b.toNat := if_pos h

theorem offset_true_of_ge {b : Byte} (h : 128 ≤ b.toNat) : offset true b = (b.toNat : Int) - 256 := if_neg (not_lt.mpr h)

/-- The signed reading is the two's-complement value (R7, R96). -/
theorem offset_true_eq_toInt (b : Byte) : offset true b = b.toInt := by
  rw [BitVec.toInt_eq_toNat_cond]
  by_cases h : b.toNat < 128
  · rw [offset_true_of_lt h, if_pos (by omega)]
  · rw [offset_true_of_ge (not_lt.mp h), if_neg (by omega)]
    rfl

/-- Settles O35: the readings below 128 and from 128 on, and the signed one as `BitVec.toInt`. -/
theorem offsetReadings : Obligations.OffsetReadings := by
  unfold Obligations.OffsetReadings
  exact fun b => ⟨fun hlt => ⟨offset_true_of_lt hlt, offset_false b⟩, fun hge => ⟨offset_true_of_ge hge, offset_false b⟩,
    offset_true_eq_toInt b⟩

/-- A zero byte is the offset 0 under either reading (R97). -/
theorem offset_zero (signed : Bool) : offset signed 0#8 = 0 := by cases signed <;> rfl

/-! ### Jumps that stay where they are -/

/-- A taken JUMP with offset 0 moves only VLEN (R97). -/
theorem exec_jump_of_offset_zero {s : State} {c o : Nat} (hc : s.var c = 0#8) (ho : s.var o = 0#8) :
    exec (.jump c o) s = .next (s.withVlen (max (max s.vlen (c + 1)) (o + 1))) := by
  rw [(jumpTakenExactlyOnZero c o s).1 hc, ho, offset_zero, Int.add_zero]
  rfl

/-- Settles O37: with V[v] = 0 the offset is V[v] too (`exec_jump_of_offset_zero`); otherwise the JUMP is not taken. -/
theorem jumpOnOneVariableGoesNowhereElse : Obligations.JumpOnOneVariableGoesNowhereElse := by
  unfold Obligations.JumpOnOneVariableGoesNowhereElse
  intro v s
  by_cases hv : s.var v = 0#8
  · rw [exec_jump_of_offset_zero hv hv, if_pos hv, max_assoc, max_self]
    rfl
  · rw [(jumpTakenExactlyOnZero v v s).2 hv, if_neg hv]

/-- From a JUMP that stays where it is, every number of steps moves only VLEN: the next step fetches the same JUMP again. -/
theorem runSteps_jump_of_offset_zero {s : State} {c o : Nat} (hrun : s.phase = .run) (hfetch : fetch s = some (.jump c o))
    (hc : s.var c = 0#8) (ho : s.var o = 0#8) (k : Nat) : ∃ n, runSteps k s = .next (s.withVlen n) := by
  induction k generalizing s with
  | zero => exact ⟨s.vlen, rfl⟩
  | succ k ih =>
    have hstep := (step_eq_exec hrun hfetch).trans (exec_jump_of_offset_zero hc ho)
    rw [runSteps_succ hstep]
    exact ih (s := s.withVlen _) hrun hfetch hc ho

/-- Settles O36: by induction on the number of steps (`runSteps_jump_of_offset_zero`). -/
theorem jumpOffsetZeroRunsForever : Obligations.JumpOffsetZeroRunsForever := by
  unfold Obligations.JumpOffsetZeroRunsForever
  intro s c o hrun hfetch hc ho k
  obtain ⟨n, hsteps⟩ := runSteps_jump_of_offset_zero hrun hfetch hc ho k
  exact ⟨s.withVlen n, hsteps, hrun, rfl⟩

/-! ### The jump that leaves the program -/

/-- A running program has at most `(W − 1) / 3` instructions (R52). -/
theorem State.Inv.instrCount_le {s : State} (h : s.Inv) (hrun : s.phase = .run) :
    instrCount s ≤ (s.params.width - 1) / 3 :=
  (portWidthBoundsPrograms.1 _ _ _ h.value_lt (h.decoded (.inl hrun))).1

/-- Settles O38: a port of 387 bits carries at most 128 instructions (`State.Inv.instrCount_le`), so 128 or more from a pc
within the program is past its end, where the step is the halt. -/
theorem unsignedLongJumpEndsTheRun : Obligations.UnsignedLongJumpEndsTheRun := by
  unfold Obligations.UnsignedLongJumpEndsTheRun
  intro s c o hinv hrun hunsigned hwidth hfetch hc ho
  have hcount := hinv.instrCount_le hrun
  have hpc : ¬ (s.pc < 0 ∨ (instrCount s : Int) ≤ s.pc) := by simp [← fetch_eq_none_iff, hfetch]
  have hend : (instrCount s : Int) ≤ s.pc + offset s.params.offsetSigned (s.var o) := by
    rw [hunsigned, offset_false]
    omega
  exact ⟨_, _, (step_eq_exec hrun hfetch).trans ((jumpTakenExactlyOnZero c o s).1 hc), hend,
    pcOutOfRangeHalts _ hrun (.inr hend), rfl⟩

end Sys2Proof.Machine
end

section
/-! PROOFS. The statements about the launch (spec/70_reset_and_hazards.md R121 to R125): when it is accepted, that the moves of
the Host keep the invariant, and that a program launched from reset is the program the Machine runs. -/

namespace Sys2Proof.Machine

/-! ### The moves of the Host -/

/-- Settles O58: the three branches of `launch`. -/
theorem launchIsAcceptedFromIdleOnly : Obligations.LaunchIsAcceptedFromIdleOnly := by
  unfold Obligations.LaunchIsAcceptedFromIdleOnly
  intro v s
  refine ⟨fun hidle hv => ?_, fun hidle hv => ?_, fun hidle => ?_⟩
  · simp only [hostMove, launch, hidle, hv, if_true]
  · simp only [hostMove, launch, hidle, not_lt.mpr hv, if_true, if_false]
  · simp only [hostMove, launch, hidle, if_false]

/-- Settles O54: a launch finds nothing executed yet, an append and a close move no other element, and a reset starts anew
(`hostMove_keeps_inv`). -/
theorem hostMovesKeepTheInvariant : Obligations.HostMovesKeepTheInvariant := by
  unfold Obligations.HostMovesKeepTheInvariant
  exact fun _ _ _ h hmove => hostMove_keeps_inv h hmove

/-! ### A launch decoded to its end -/

/-- The port carries a program's integer exactly when the program fits it (R52, R56). -/
theorem encodeProgram_lt_iff {w : Nat} {p : List Instr} : encodeProgram p < 2 ^ w ↔ programWf w p = true :=
  blen_le_iff.symm.trans (portWidthBoundsPrograms.2 w p)

/-- The Decoder's steps leave the program loaded: they never write pc and CAUSE on the way to RUN, so these must hold their reset
values before (R66, R122). -/
theorem runSteps_encodeProgram {s : State} {p : List Instr} (hvalue : s.value = encodeProgram p) (hdec : s.phase = .decode)
    (hwork : s.work = .search) (hpc : s.pc = 0) (hcause : s.cause = .none) :
    runSteps (programBitLength p + 2) s = .next (loadProgram p s) := by
  have hrun := decoderComputesDecodeAll s hdec hwork
  have hlen : blen s.value - 1 = programBitLength p := by rw [hvalue, blen_encodeProgram, Nat.add_sub_cancel]
  have hok : decodeAll s.value = .ok p := by rw [hvalue, programDecodesFromItsImage.1]
  simp only [hlen, hok] at hrun
  rw [hrun, loadProgram, ← hvalue, ← hpc, ← hcause]

/-- Settles O56: the integer fits, so the launch is accepted, and the Decoder then loads the program; what the launch wrote is
written again by the load. -/
theorem launchedProgramIsLoaded : Obligations.LaunchedProgramIsLoaded := by
  unfold Obligations.LaunchedProgramIsLoaded
  intro q p hwf
  refine ⟨_, (launchIsAcceptedFromIdleOnly _ _).1 rfl (encodeProgram_lt_iff.mpr hwf), ?_⟩
  exact runSteps_encodeProgram rfl rfl rfl rfl rfl

end Sys2Proof.Machine
end
